-- ==== Sys2Proof/Word.lean ====
section
/-! DEFINITION. The word types of the ports (10_state.md R15). -/

namespace Sys2Proof

/-- The command word CMD (R15, R16). -/
abbrev CommandWord := BitVec 8

/-- A word port, IN_A, IN_B, OUT_A or OUT_B (R15, R18, R19). -/
abbrev PackedWord := BitVec 32

/-- A channel port, IN_X to IN_Z or OUT_X to OUT_Z (R15, R17, R20). -/
abbrev ChannelWord := BitVec 64

/-- The status output ERR (R15, R21). -/
abbrev ErrBit := BitVec 1

end Sys2Proof
end

