-- ==== Sys2Proof/Syntax.lean ====
section
/-! DEFINITION. The operations of the block and the shapes their words have: command fields, format parameters and
wire layout descriptors. -/

namespace Sys2Proof

/-- The six codecs, in the order of the CODEC field (00_scope.md R2, 10_state.md R16). -/
inductive Codec where
  | u9e5 | s8e5 | ur9e2 | s13e6 | ur14e3 | s18e7
deriving DecidableEq, Repr

/-- The DIR field: encode or decode (R16). -/
inductive Direction where
  | encode | decode
deriving DecidableEq, Repr

/-- The PREC field: the precision of the channels (R16). -/
inductive Precision where
  | binary32 | binary64
deriving DecidableEq, Repr

/-- The fourteen operations, one constructor for each row of the opcode map (30_encoding.md R41). An operation has no
operand field: its operands are the ports. -/
inductive Instr where
  | encU9E5 | encS8E5 | encUR9E2 | encS13E6 | encUR14E3 | encS18E7F32 | encS18E7F64
  | decU9E5 | decS8E5 | decUR9E2 | decS13E6 | decUR14E3 | decS18E7F32 | decS18E7F64
deriving DecidableEq, Repr

/-- The codec an operation works on (the "codec" column of R41). -/
def Instr.codec : Instr → Codec
  | .encU9E5 | .decU9E5 => .u9e5
  | .encS8E5 | .decS8E5 => .s8e5
  | .encUR9E2 | .decUR9E2 => .ur9e2
  | .encS13E6 | .decS13E6 => .s13e6
  | .encUR14E3 | .decUR14E3 => .ur14e3
  | .encS18E7F32 | .encS18E7F64 | .decS18E7F32 | .decS18E7F64 => .s18e7

/-- The "direction" column of R41. -/
def Instr.direction : Instr → Direction
  | .encU9E5 | .encS8E5 | .encUR9E2 | .encS13E6 | .encUR14E3 | .encS18E7F32 | .encS18E7F64 => .encode
  | .decU9E5 | .decS8E5 | .decUR9E2 | .decS13E6 | .decUR14E3 | .decS18E7F32 | .decS18E7F64 => .decode

/-- The "channel precision" column of R41. -/
def Instr.precision : Instr → Precision
  | .encU9E5 | .encS8E5 | .encUR9E2 | .encS13E6 | .encUR14E3 | .encS18E7F32 => .binary32
  | .decU9E5 | .decS8E5 | .decUR9E2 | .decS13E6 | .decUR14E3 | .decS18E7F32 => .binary32
  | .encS18E7F64 | .decS18E7F64 => .binary64

/-- The four fields of a command word, each of its own width (R16, R39). -/
structure CommandFields where
  rsvd  : BitVec 3
  prec  : BitVec 1
  dir   : BitVec 1
  codec : BitVec 3
deriving DecidableEq, Repr

/-- A parameter pair (E, M): exponent bits and mantissa bits (40_numeric_engine.md R56). -/
structure FormatParams where
  expBits : Nat
  manBits : Nat
deriving DecidableEq, Repr

/-- The two packed words of an encoded value (glossary, R43 to R49). -/
inductive WordName where
  | A | B
deriving DecidableEq, Repr

/-- The fields an encoded value is made of (R43). -/
inductive FieldName where
  | e | mx | my | mz | sx | sy | sz
deriving DecidableEq, Repr

/-- One entry of a layout descriptor (41_encode.md R85): bits `[offset + width - 1 : offset]` of a word carry the slice
of a field that begins at the field's bit `low`. `low` is 0 but for the upper slices of the two split fields (R50). -/
structure Slot where
  word   : WordName
  offset : Nat
  width  : Nat
  field  : FieldName
  low    : Nat
deriving DecidableEq, Repr

/-- A wire layout: how many bits of each word the format has (0 where word B does not exist), and its slots (R44 to
R49). -/
structure Layout where
  bitsA : Nat
  bitsB : Nat
  slots : List Slot
deriving DecidableEq, Repr

end Sys2Proof
end

