-- ==== Sys2Proof/WellFormed.lean ====
section
/-! DEFINITION. What makes a command word legal (30_encoding.md R39), a parameter pair valid (40_numeric_engine.md R56)
and a layout descriptor a layout of its format (R51, R85). -/

namespace Sys2Proof

namespace CommandFields

/-- RSVD must be zero (R16). -/
abbrev RsvdOk (f : CommandFields) : Prop := f.rsvd = 0

/-- CODEC is 0 to 5 (R16). -/
abbrev CodecOk (f : CommandFields) : Prop := f.codec.toNat ≤ 5

/-- PREC is 1 only with CODEC 5 (R16). -/
abbrev PrecOk (f : CommandFields) : Prop := f.prec = 0 ∨ f.codec = 5

/-- The three conditions of R39 together. -/
abbrev Legal (f : CommandFields) : Prop := f.RsvdOk ∧ f.CodecOk ∧ f.PrecOk

end CommandFields

/-- The CODEC field's value for each codec (R16). -/
def Codec.code : Codec → BitVec 3
  | .u9e5 => 0 | .s8e5 => 1 | .ur9e2 => 2 | .s13e6 => 3 | .ur14e3 => 4 | .s18e7 => 5

/-- The DIR field's value (R16). -/
def Direction.code : Direction → BitVec 1
  | .encode => 0 | .decode => 1

/-- The PREC field's value (R16). -/
def Precision.code : Precision → BitVec 1
  | .binary32 => 0 | .binary64 => 1

/-- The command fields an operation stands for (R40). -/
def Instr.fields (i : Instr) : CommandFields :=
  { rsvd := 0, prec := i.precision.code, dir := i.direction.code, codec := i.codec.code }

/-- An operation is well formed when its command fields are legal. The type `Instr` holds no operand, so every
operation is (`Laws.CommandFields`). -/
abbrev Instr.WellFormed (i : Instr) : Prop := i.fields.Legal

/-- The validity of a parameter pair: the three constraints of R56. -/
abbrev FormatParams.Valid (f : FormatParams) : Prop :=
  (1 ≤ f.expBits ∧ f.expBits ≤ 7) ∧ (1 ≤ f.manBits ∧ f.manBits ≤ 24) ∧ f.expBits * f.manBits ≤ 133

namespace Layout

/-- The format bits of a word. -/
def bitsOf (l : Layout) : WordName → Nat
  | .A => l.bitsA
  | .B => l.bitsB

/-- Every slot is non-empty and lies inside its word's format bits (R51). -/
abbrev SlotsInside (l : Layout) : Prop := ∀ s ∈ l.slots, 0 < s.width ∧ s.offset + s.width ≤ l.bitsOf s.word

/-- Two slots share no bit of a word. -/
abbrev SlotsApart (s t : Slot) : Prop :=
  s.word ≠ t.word ∨ s.offset + s.width ≤ t.offset ∨ t.offset + t.width ≤ s.offset

/-- The slots are pairwise disjoint (R85). -/
abbrev Disjoint (l : Layout) : Prop := l.slots.Pairwise SlotsApart

/-- The slots fill the format exactly (R51). -/
abbrev Full (l : Layout) : Prop := (l.slots.map Slot.width).sum = l.bitsA + l.bitsB

/-- The number of bits a layout stores of a field. -/
def fieldWidth (l : Layout) (n : FieldName) : Nat :=
  ((l.slots.filter (fun s => s.field = n)).map Slot.width).sum

/-- Each slice of a field starts where the lower slices of the same field end. -/
abbrev SlicesContiguous (l : Layout) : Prop :=
  ∀ s ∈ l.slots, s.low = ((l.slots.filter (fun t => t.field = s.field ∧ t.low < s.low)).map Slot.width).sum

/-- A layout descriptor that is a layout: R51 and R85. -/
abbrev WellFormed (l : Layout) : Prop := l.SlotsInside ∧ l.Disjoint ∧ l.Full ∧ l.SlicesContiguous

end Layout

end Sys2Proof
end

