-- ==== Sys2Proof/Decode.lean ====
section
/-! DEFINITION. The command decoder and encoder (30_encoding.md R39 to R42, R54). -/

namespace Sys2Proof

/-- The fields of a command word: RSVD [7:5], PREC [4], DIR [3], CODEC [2:0] (R16). -/
def commandFields (cmd : CommandWord) : CommandFields :=
  { rsvd := cmd.extractLsb' 5 3, prec := cmd.extractLsb' 4 1, dir := cmd.extractLsb' 3 1, codec := cmd.extractLsb' 0 3 }

/-- Why a command word is illegal: the three groups of R42. The block handles all of them alike (R102). -/
inductive IllegalReason where
  /-- RSVD is not zero. -/
  | reservedBits (rsvd : BitVec 3)
  /-- CODEC is 6 or 7. -/
  | reservedCodec (codec : BitVec 3)
  /-- PREC is 1 with a codec that has no binary64 channels. -/
  | precisionNotAvailable (codec : Codec)
deriving DecidableEq, Repr

/-- The codec of a CODEC field; 6 and 7 are reserved (R16). -/
def codecOfCode (code : BitVec 3) : Option Codec :=
  match code.toNat with
  | 0 => some .u9e5
  | 1 => some .s8e5
  | 2 => some .ur9e2
  | 3 => some .s13e6
  | 4 => some .ur14e3
  | 5 => some .s18e7
  | _ => none

/-- The direction of a DIR field (R16). -/
def directionOfCode (code : BitVec 1) : Direction := if code = 0 then .encode else .decode

/-- The precision of a PREC field (R16). -/
def precisionOfCode (code : BitVec 1) : Precision := if code = 0 then .binary32 else .binary64

/-- The operation of a codec, a direction and a precision (R40, R41); only S18E7 has binary64 channels. -/
def operationOf : Codec → Direction → Precision → Option Instr
  | .u9e5, .encode, .binary32 => some .encU9E5
  | .s8e5, .encode, .binary32 => some .encS8E5
  | .ur9e2, .encode, .binary32 => some .encUR9E2
  | .s13e6, .encode, .binary32 => some .encS13E6
  | .ur14e3, .encode, .binary32 => some .encUR14E3
  | .s18e7, .encode, .binary32 => some .encS18E7F32
  | .s18e7, .encode, .binary64 => some .encS18E7F64
  | .u9e5, .decode, .binary32 => some .decU9E5
  | .s8e5, .decode, .binary32 => some .decS8E5
  | .ur9e2, .decode, .binary32 => some .decUR9E2
  | .s13e6, .decode, .binary32 => some .decS13E6
  | .ur14e3, .decode, .binary32 => some .decUR14E3
  | .s18e7, .decode, .binary32 => some .decS18E7F32
  | .s18e7, .decode, .binary64 => some .decS18E7F64
  | .u9e5, _, .binary64 => none
  | .s8e5, _, .binary64 => none
  | .ur9e2, _, .binary64 => none
  | .s13e6, _, .binary64 => none
  | .ur14e3, _, .binary64 => none

/-- The command decoder (R40): total on the 256 command words, an illegal one rejected by name. Where a word is illegal
for several reasons the first of RSVD, CODEC, PREC is named (log entry 14). -/
def decode (cmd : CommandWord) : Except IllegalReason Instr :=
  let f := commandFields cmd
  if f.rsvd ≠ 0 then .error (.reservedBits f.rsvd)
  else
    match codecOfCode f.codec with
    | none => .error (.reservedCodec f.codec)
    | some c =>
      match operationOf c (directionOfCode f.dir) (precisionOfCode f.prec) with
      | none => .error (.precisionNotAvailable c)
      | some i => .ok i

/-- The command word of each operation, as the table of R41 writes it. -/
def encode : Instr → CommandWord
  | .encU9E5 => 0x00
  | .encS8E5 => 0x01
  | .encUR9E2 => 0x02
  | .encS13E6 => 0x03
  | .encUR14E3 => 0x04
  | .encS18E7F32 => 0x05
  | .encS18E7F64 => 0x15
  | .decU9E5 => 0x08
  | .decS8E5 => 0x09
  | .decUR9E2 => 0x0A
  | .decS13E6 => 0x0B
  | .decUR14E3 => 0x0C
  | .decS18E7F32 => 0x0D
  | .decS18E7F64 => 0x1D

/-- `Legal(CMD)` of R39. -/
abbrev LegalCommand (cmd : CommandWord) : Prop := (commandFields cmd).Legal

/-- The decoder applied to a row of the opcode table: a command is one 8-bit word and nothing follows it (R54), so any
other width, or a number that does not fit 8 bits, is no command (log entry 13). -/
def decodeTableWord (nbits w : Nat) : Option Instr :=
  if nbits = 8 ∧ w < 256 then (decode (BitVec.ofNat 8 w)).toOption else none

end Sys2Proof
end

