-- ==== Sys2Proof/Machine/Flags.lean ====
section
/-! DEFINITION. ERR, the block's only status output (10_state.md R21). No IEEE flag exists (40_numeric_engine.md
R82). -/

namespace Sys2Proof.Machine

/-- ERR in a transaction with a legal command (R21, R101). -/
def errLegal : ErrBit := 0

/-- ERR in a transaction with an illegal command: the cause ILLEGAL_CMD (R21, R102, R103). -/
def errIllegal : ErrBit := 1

/-- ERR as a function of CMD alone (R21, R27). -/
def errOf (cmd : CommandWord) : ErrBit := if LegalCommand cmd then errLegal else errIllegal

end Sys2Proof.Machine
end

