-- ==== Sys2Proof/Machine/Bits.lean ====
section
/-! DEFINITION. Bit fields of unsigned integers (00_scope.md R7, R10). -/

namespace Sys2Proof.Machine

/-- Bit-field extraction, `bf(v, off, n)` of R10: the `n` bits of `v` from bit `off` up. -/
def bf (v off n : Nat) : Nat := (v >>> off) &&& ((1 <<< n) - 1)

end Sys2Proof.Machine
end

