-- ==== Sys2Proof/Machine/State.lean ====
section
/-! DEFINITION. The state of the block: the twelve signals of 10_state.md R15. The block keeps nothing from one
transaction to the next (R14), so there is nothing else to hold. -/

namespace Sys2Proof.Machine

/-- The input signals: CMD and the operand ports (R15 to R18). -/
structure Inputs where
  cmd : CommandWord
  inX : ChannelWord
  inY : ChannelWord
  inZ : ChannelWord
  inA : PackedWord
  inB : PackedWord
deriving DecidableEq, Repr

/-- The output signals: the result ports and ERR (R15, R19 to R21). -/
structure Outputs where
  outA : PackedWord
  outB : PackedWord
  outX : ChannelWord
  outY : ChannelWord
  outZ : ChannelWord
  err  : ErrBit
deriving DecidableEq, Repr

/-- The block's signals between two transactions: what the host drives, and what the last settled transaction drives. -/
structure State where
  ins  : Inputs
  outs : Outputs
deriving DecidableEq, Repr

/-- Faults. `step` raises none: a run of the block cannot fault (70_reset_and_hazards.md R121). -/
inductive Fault where
  /-- ILLEGAL_CMD (R103) in a host run whose program must not issue an illegal command (93_implementation_defined.md
  I5). Raised by `transactStrict` alone. Safe: the block itself goes on, with ERR = 1. -/
  | illegalCmd (cmd : CommandWord)
deriving DecidableEq, Repr

/-- Refusals. `step` raises none. -/
inductive Refusal where
  /-- An instruction whose meaning is not written. No arm of `exec` answers with it. Safe. -/
  | notModelled (mnemonic : String)
  /-- A parameter pair outside R56: no such codec is built. Raised by `FormatParams.make` alone. Safe. -/
  | invalidFormat (expBits manBits : Nat)
deriving DecidableEq, Repr

/-- The input signals at reset. The spec gives an input no reset value (R27): every one is 0 here, a DESIGN CHOICE,
unsafe (log entry 1). -/
def Inputs.reset : Inputs := { cmd := 0, inX := 0, inY := 0, inZ := 0, inA := 0, inB := 0 }

/-- The output signals at reset: the step function of the inputs (R115), which is this record at `Inputs.reset`
(`Obligations.ResetIsSettled`; log entry 2). -/
def Outputs.reset : Outputs := { outA := 0, outB := 0, outX := 0, outY := 0, outZ := 0, err := 0 }

/-- The signals after power-up (R27, R115). -/
def State.reset : State := { ins := Inputs.reset, outs := Outputs.reset }

end Sys2Proof.Machine
end

