-- ==== Sys2Proof/Machine/Params.lean ====
section
/-! DEFINITION. Format parameters, derived constants and the constants of the six codecs (40_numeric_engine.md R56 to
R59), and the constants of the two channel precisions (00_scope.md R12). -/

namespace Sys2Proof

namespace FormatParams

/-- Building a codec's parameters: an invalid pair is refused (R56, 92_eei_decisions.md D22). -/
def make (expBits manBits : Nat) : Except Machine.Refusal FormatParams :=
  let f : FormatParams := { expBits := expBits, manBits := manBits }
  if f.Valid then .ok f else .error (.invalidFormat expBits manBits)

/-- `max_valid_biased_exp` (R57). -/
def maxValidBiasedExp (f : FormatParams) : Nat := 2 ^ f.expBits - 1

/-- `exp_bias` (R57), by integer division. -/
def expBias (f : FormatParams) : Nat := f.maxValidBiasedExp / 2

/-- `mantissa_values` (R57). -/
def mantissaValues (f : FormatParams) : Nat := 2 ^ f.manBits

/-- `max_mantissa` (R57). -/
def maxMantissa (f : FormatParams) : Nat := f.mantissaValues - 1

/-- `max_exp` (R57). -/
def maxExp (f : FormatParams) : Nat := f.maxValidBiasedExp - f.expBias

/-- `epsilon` (R57), the decoded value of mantissa 1 at exponent 0. -/
def epsilon (f : FormatParams) : ℚ := (1 / f.mantissaValues) / 2 ^ f.expBias

/-- `GMAX` (R57), the largest magnitude the decoder can produce. -/
def gmax (f : FormatParams) : ℚ := ((f.maxMantissa : ℚ) / f.mantissaValues) * 2 ^ f.maxExp

end FormatParams

namespace Codec

/-- The parameter pair of each codec (R2, R58). -/
def params : Codec → FormatParams
  | .u9e5 => { expBits := 5, manBits := 9 }
  | .s8e5 => { expBits := 5, manBits := 8 }
  | .ur9e2 => { expBits := 2, manBits := 9 }
  | .s13e6 => { expBits := 6, manBits := 13 }
  | .ur14e3 => { expBits := 3, manBits := 14 }
  | .s18e7 => { expBits := 7, manBits := 18 }

/-- Whether a codec stores signs (R2, R58). -/
def signed : Codec → Bool
  | .u9e5 => false
  | .s8e5 | .ur9e2 | .s13e6 | .ur14e3 | .s18e7 => true

/-- The clamp constant K, "explicit per-codec constant, not a derived value" (R58). -/
def clampConstant : Codec → Nat
  | .u9e5 => 65408
  | .s8e5 => 65280
  | .ur9e2 => 1
  | .s13e6 => 4294443008
  | .ur14e3 => 16
  | .s18e7 => 18446673704965373952

/-- The normalisation multiplier `K / GMAX` (R59). No datapath definition reads it. -/
def normMultiplier (c : Codec) : ℚ := (c.clampConstant : ℚ) / c.params.gmax

end Codec

namespace Precision

/-- Bits of a channel pattern (R12). -/
def width : Precision → Nat
  | .binary32 => 32
  | .binary64 => 64

/-- `EB`, the IEEE exponent bias (R12). -/
def expBias : Precision → Nat
  | .binary32 => 127
  | .binary64 => 1023

/-- `FB`, the fraction width (R12). -/
def fracBits : Precision → Nat
  | .binary32 => 23
  | .binary64 => 52

/-- `EMAX`, the all-ones exponent code (R12). -/
def expAllOnes : Precision → Nat
  | .binary32 => 0xFF
  | .binary64 => 0x7FF

/-- Width of the biased exponent field (R12): 8 or 11 bits. -/
def expFieldBits (p : Precision) : Nat := p.width - 1 - p.fracBits

/-- Magnitudes are counted in units of `2^unitExp`, the smallest subnormal of the precision, `2^(1 - EB - FB)`. Every
magnitude of R12 and every K is a whole number of units, so the count is exact (log entry 7). -/
def unitExp (p : Precision) : Int := 1 - p.expBias - p.fracBits

/-- How many units make 1, as a power of two: `EB + FB - 1`. -/
def unitsPerOneLog (p : Precision) : Nat := p.expBias + p.fracBits - 1

end Precision

/-- K in units of the channel precision. -/
def Codec.clampUnits (c : Codec) (p : Precision) : Nat := c.clampConstant <<< p.unitsPerOneLog

end Sys2Proof
end

