-- ==== Sys2Proof/Machine/Operands.lean ====
section
/-! DEFINITION. Channel operands: reading a channel port, classifying an IEEE-754 pattern, and conditioning it for an
encode (10_state.md R17, 40_numeric_engine.md R60 to R64). -/

namespace Sys2Proof.Machine

/-- The channel pattern on a port: bits [31:0] for binary32, with [63:32] ignored, and all 64 for binary64 (R17). -/
def channelBits (p : Precision) (port : ChannelWord) : Nat := bf port.toNat 0 p.width

/-- The class of a pattern (R60). -/
inductive ChannelClass where
  | nan | inf | fin
deriving DecidableEq, Repr

/-- The result of `Classify` (R60): class, sign bit, and magnitude in units of `2^unitExp` (0 unless finite). -/
structure Classified where
  cls  : ChannelClass
  sign : Bool
  mag  : Nat
deriving DecidableEq, Repr

/-- The sign bit of a pattern (R12). -/
def signOf (p : Precision) (b : Nat) : Bool := bf b (p.width - 1) 1 == 1

/-- The biased exponent of a pattern (R12). -/
def expOf (p : Precision) (b : Nat) : Nat := bf b p.fracBits p.expFieldBits

/-- The fraction of a pattern (R12). -/
def fracOf (p : Precision) (b : Nat) : Nat := bf b 0 p.fracBits

/-- The magnitude of a finite pattern in units of `2^(1 - EB - FB)` (R12): the fraction for zeros and subnormals,
`(2^FB + fraction) * 2^(exponent - 1)` for normals. -/
def finiteMag (p : Precision) (exponent fraction : Nat) : Nat :=
  if exponent = 0 then fraction else (2 ^ p.fracBits + fraction) <<< (exponent - 1)

/-- `Classify(prec, b)` (R60), by the classification of R12. -/
def classify (p : Precision) (b : Nat) : Classified :=
  let exponent := expOf p b
  let fraction := fracOf p b
  if exponent = p.expAllOnes then
    { cls := if fraction = 0 then .inf else .nan, sign := signOf p b, mag := 0 }
  else { cls := .fin, sign := signOf p b, mag := finiteMag p exponent fraction }

/-- The result of `Condition` (R64): sign bit and magnitude in units, in [0, K]. -/
structure Conditioned where
  sign : Bool
  mag  : Nat
deriving DecidableEq, Repr

/-- `Condition(codec, prec, b)` (R64): a NaN becomes +0 (R61), magnitudes clamp to K (R62), and in the unsigned codec a
set sign bit gives 0 (R63). -/
def condition (c : Codec) (p : Precision) (b : Nat) : Conditioned :=
  let r := classify p b
  let v := match r.cls with
    | .inf => c.clampUnits p
    | .fin => min r.mag (c.clampUnits p)
    | .nan => 0
  if r.cls = .nan then { sign := false, mag := 0 }
  else if c.signed then { sign := r.sign, mag := v }
  else if r.sign then { sign := false, mag := 0 }
  else { sign := false, mag := v }

end Sys2Proof.Machine
end

