-- ==== Sys2Proof/Machine/Engine.lean ====
section
/-! DEFINITION. The numeric engine: mantissa_rounding_logic, the shared exponent selector, the channel quantizer and the
reconstruction (40_numeric_engine.md R65 to R79). A magnitude is a number of units of `2^unitExp` of its precision; a
denominator, a power of two, is given by its exponent. -/

namespace Sys2Proof.Machine

/-- `RHU(sig * 2^k / 2^s)` in the integer shift form of R74. -/
def rhu (sig : Nat) (k s : Int) : Nat :=
  let r := s - k
  if r ≤ 0 then sig <<< (-r).toNat else (sig + 1 <<< (r.toNat - 1)) >>> r.toNat

/-- `FloorLog2` of a positive magnitude of `n` units (R66). -/
def floorLog2 (p : Precision) (n : Nat) : Int := (Nat.log2 n : Int) + p.unitExp

/-- The exponent of the denominator `2^(e - exp_bias - M)` at exponent `e` (R68, R72). -/
def denomExp (f : FormatParams) (e : Int) : Int := e - f.expBias - f.manBits

/-- Step 1 of the selector, `e0` (R67). -/
def startExp (f : FormatParams) (p : Precision) (maxmag : Nat) : Int :=
  let low : Int := -(f.expBias : Int) - 1
  (if maxmag = 0 then low else max low (floorLog2 p maxmag)) + 1 + f.expBias

/-- Step 3 of the selector, `maxm` (R69). -/
def startMantissa (f : FormatParams) (p : Precision) (maxmag : Nat) : Nat :=
  rhu maxmag p.unitExp (denomExp f (startExp f p maxmag))

/-- Step 4 of the selector, the carry correction, `e1` (R70). -/
def carriedExp (f : FormatParams) (p : Precision) (maxmag : Nat) : Int :=
  if startMantissa f p maxmag = f.mantissaValues then startExp f p maxmag + 1 else startExp f p maxmag

/-- The shared exponent after saturation, `e` (R71). -/
def sharedExp (f : FormatParams) (p : Precision) (maxmag : Nat) : Int :=
  min (carriedExp f p maxmag) f.maxValidBiasedExp

/-- The selector's result (R72): the exponent, and the exponent of the denominator. -/
structure Selected where
  e        : Nat
  denomExp : Int
deriving DecidableEq, Repr

/-- `SelectExponent(codec, maxmag)` (R72): the denominator is recomputed from the saturated exponent. -/
def selectExponent (f : FormatParams) (p : Precision) (maxmag : Nat) : Selected :=
  let e := sharedExp f p maxmag
  { e := e.toNat, denomExp := denomExp f e }

/-- `Quantize(codec, c, denom)` (R75), with the denominator `2^dexp`. -/
def quantize (f : FormatParams) (p : Precision) (c : Nat) (dexp : Int) : Nat :=
  min (rhu c p.unitExp dexp) f.maxMantissa

/-- The fields of an encoded value (R43, R85). The signs are 0 in the unsigned codec. -/
structure Fields where
  e  : Nat
  mx : Nat
  my : Nat
  mz : Nat
  sx : Bool
  sy : Bool
  sz : Bool
deriving DecidableEq, Repr

/-- `EncodeFields(codec, prec, bx, by, bz)` (41_encode.md R85). -/
def encodeFields (c : Codec) (p : Precision) (bx bY bz : Nat) : Fields :=
  let x := condition c p bx
  let y := condition c p bY
  let z := condition c p bz
  let sel := selectExponent c.params p (max x.mag (max y.mag z.mag))
  { e := sel.e
    mx := quantize c.params p x.mag sel.denomExp
    my := quantize c.params p y.mag sel.denomExp
    mz := quantize c.params p z.mag sel.denomExp
    sx := x.sign, sy := y.sign, sz := z.sign }

/-- The biased IEEE exponent `ToIEEE` writes for a non-zero mantissa `m` of bit length `L`: `t + L - 1 + EB` (R79). -/
def ieeeExponent (p : Precision) (m : Nat) (t : Int) : Int := t + (Nat.log2 m + 1 : Nat) - 1 + p.expBias

/-- `ToIEEE(prec, s, m, t)` (R79): the pattern of `(-1)^s * m * 2^t`. R79 gives it for `m < 2^24`, and every codec's
exponent is normal; outside that the formula is not the value (log entry 9). -/
def toIeee (p : Precision) (s : Bool) (m : Nat) (t : Int) : Nat :=
  if m = 0 then s.toNat <<< (p.width - 1)
  else
    let L := Nat.log2 m + 1
    (s.toNat <<< (p.width - 1)) ||| ((ieeeExponent p m t).toNat <<< p.fracBits) |||
      ((m <<< (p.fracBits + 1 - L)) &&& (2 ^ p.fracBits - 1))

end Sys2Proof.Machine
end

