-- ==== Sys2Proof/Machine/Layouts.lean ====
section
/-! DEFINITION. The six wire layouts, and the generic format_packer and format_unpacker (30_encoding.md R43 to R51,
41_encode.md R85, 42_decode.md R93). -/

namespace Sys2Proof

/-- The wire layout of each codec, as descriptors: the tables of R44 to R49, fields from the top down, with the slices
of R50 for the exponent of UR14E3 and the y mantissa of S18E7. -/
def Codec.layout : Codec → Layout
  | .u9e5 => { bitsA := 32, bitsB := 0, slots :=
      [⟨.A, 27, 5, .e, 0⟩, ⟨.A, 18, 9, .mz, 0⟩, ⟨.A, 9, 9, .my, 0⟩, ⟨.A, 0, 9, .mx, 0⟩] }
  | .s8e5 => { bitsA := 32, bitsB := 0, slots :=
      [⟨.A, 27, 5, .e, 0⟩, ⟨.A, 26, 1, .sz, 0⟩, ⟨.A, 18, 8, .mz, 0⟩, ⟨.A, 17, 1, .sy, 0⟩, ⟨.A, 9, 8, .my, 0⟩,
       ⟨.A, 8, 1, .sx, 0⟩, ⟨.A, 0, 8, .mx, 0⟩] }
  | .ur9e2 => { bitsA := 32, bitsB := 0, slots :=
      [⟨.A, 30, 2, .e, 0⟩, ⟨.A, 29, 1, .sz, 0⟩, ⟨.A, 20, 9, .mz, 0⟩, ⟨.A, 19, 1, .sy, 0⟩, ⟨.A, 10, 9, .my, 0⟩,
       ⟨.A, 9, 1, .sx, 0⟩, ⟨.A, 0, 9, .mx, 0⟩] }
  | .s13e6 => { bitsA := 32, bitsB := 16, slots :=
      [⟨.A, 26, 6, .e, 0⟩, ⟨.A, 13, 13, .my, 0⟩, ⟨.A, 0, 13, .mx, 0⟩,
       ⟨.B, 15, 1, .sz, 0⟩, ⟨.B, 14, 1, .sy, 0⟩, ⟨.B, 13, 1, .sx, 0⟩, ⟨.B, 0, 13, .mz, 0⟩] }
  | .ur14e3 => { bitsA := 32, bitsB := 16, slots :=
      [⟨.A, 31, 1, .e, 0⟩, ⟨.A, 30, 1, .sz, 0⟩, ⟨.A, 29, 1, .sy, 0⟩, ⟨.A, 28, 1, .sx, 0⟩, ⟨.A, 14, 14, .my, 0⟩,
       ⟨.A, 0, 14, .mx, 0⟩, ⟨.B, 14, 2, .e, 1⟩, ⟨.B, 0, 14, .mz, 0⟩] }
  | .s18e7 => { bitsA := 32, bitsB := 32, slots :=
      [⟨.A, 18, 14, .my, 0⟩, ⟨.A, 0, 18, .mx, 0⟩, ⟨.B, 25, 7, .e, 0⟩, ⟨.B, 24, 1, .sz, 0⟩, ⟨.B, 23, 1, .sy, 0⟩,
       ⟨.B, 22, 1, .sx, 0⟩, ⟨.B, 4, 18, .mz, 0⟩, ⟨.B, 0, 4, .my, 14⟩] }

namespace Machine

/-- A field's value as the unsigned integer a layout stores. -/
def Fields.get (f : Fields) : FieldName → Nat
  | .e => f.e
  | .mx => f.mx
  | .my => f.my
  | .mz => f.mz
  | .sx => f.sx.toNat
  | .sy => f.sy.toNat
  | .sz => f.sz.toNat

/-- The value a slot carries: the slice of its field, `width` bits from `low` (R50, R85; log entry 8). -/
def slotValue (f : Fields) (s : Slot) : Nat := bf (f.get s.field) s.low s.width

/-- One word of `Pack` (R85): the OR of the shifted slot values of that word. -/
def packWord (l : Layout) (f : Fields) (w : WordName) : Nat :=
  (l.slots.filter (fun s => s.word = w)).foldl (fun acc s => acc ||| (slotValue f s <<< s.offset)) 0

/-- `Pack(layout, fields)` (R85): word A and word B. -/
def pack (l : Layout) (f : Fields) : Nat × Nat := (packWord l f .A, packWord l f .B)

/-- A field as `Unpack` extracts it (R93): its slices with `bf`, put back together (R50). -/
def unpackField (l : Layout) (a b : Nat) (n : FieldName) : Nat :=
  (l.slots.filter (fun s => s.field = n)).foldl
    (fun acc s => acc ||| (bf (match s.word with | .A => a | .B => b) s.offset s.width <<< s.low)) 0

/-- `Unpack(layout, A, B)` (R93). A field the layout does not hold is 0: the signs of U9E5. -/
def unpack (l : Layout) (a b : Nat) : Fields :=
  { e := unpackField l a b .e
    mx := unpackField l a b .mx
    my := unpackField l a b .my
    mz := unpackField l a b .mz
    sx := unpackField l a b .sx == 1
    sy := unpackField l a b .sy == 1
    sz := unpackField l a b .sz == 1 }

/-- Fields that fit a codec: what the encoder produces (R73, R76) and every word holds (R52). The unsigned codec has no
sign. -/
abbrev Fields.InRange (c : Codec) (f : Fields) : Prop :=
  f.e ≤ c.params.maxValidBiasedExp ∧ f.mx ≤ c.params.maxMantissa ∧ f.my ≤ c.params.maxMantissa ∧
    f.mz ≤ c.params.maxMantissa ∧ (c.signed = false → f.sx = false ∧ f.sy = false ∧ f.sz = false)

end Machine

end Sys2Proof
end

