-- ==== Sys2Proof/Machine/Ops.lean ====
section
/-! DEFINITION. The shared operations of a transaction: driving the outputs of an encode, of a decode and of an illegal
command (10_state.md R19 to R21, 41_encode.md R85, 42_decode.md R93, 60_exceptions.md R102). -/

namespace Sys2Proof.Machine

/-- The host drives the input signals (R15, R120); the outputs follow at the next step. -/
def State.drive (s : State) (i : Inputs) : State := { s with ins := i }

/-- The end of a transaction: every output signal is driven and no input is (R16, R28). -/
def State.settle (s : State) (o : Outputs) : State := { s with outs := o }

/-- The outputs of an encode that produced words `a` and `b`: channel outputs 0, ERR 0 (R19, R20, R85). -/
def wordOutputs (a b : Nat) : Outputs :=
  { outA := BitVec.ofNat 32 a, outB := BitVec.ofNat 32 b, outX := 0, outY := 0, outZ := 0, err := errLegal }

/-- The outputs of a decode that produced the patterns `x`, `y` and `z`, zero-extended to the 64-bit ports: word outputs
0, ERR 0 (R19, R20, R93). -/
def channelOutputs (x y z : Nat) : Outputs :=
  { outA := 0, outB := 0, outX := BitVec.ofNat 64 x, outY := BitVec.ofNat 64 y, outZ := BitVec.ofNat 64 z,
    err := errLegal }

/-- The outputs of an illegal command (R102): every result 0, ERR 1. -/
def illegalOutputs : Outputs := { outA := 0, outB := 0, outX := 0, outY := 0, outZ := 0, err := errIllegal }

/-- The fields an encode of the channel ports produces (R17, R85). -/
def encodedFields (c : Codec) (p : Precision) (i : Inputs) : Fields :=
  encodeFields c p (channelBits p i.inX) (channelBits p i.inY) (channelBits p i.inZ)

/-- The common encode path (R85): fields of the channel ports, packed by the codec's layout. -/
def encodeOutputs (c : Codec) (p : Precision) (i : Inputs) : Outputs :=
  let words := pack c.layout (encodedFields c p i)
  wordOutputs words.1 words.2

/-- The fields a decode reads from the word ports (R18, R93). Bits outside the format are read by no slot. -/
def decodedFields (c : Codec) (i : Inputs) : Fields := unpack c.layout i.inA.toNat i.inB.toNat

/-- The pattern of one decoded channel (R78, R79, R93). -/
def decodedChannel (c : Codec) (p : Precision) (f : Fields) (s : Bool) (m : Nat) : Nat :=
  toIeee p s m (denomExp c.params f.e)

/-- The common decode path (R93). -/
def decodeOutputs (c : Codec) (p : Precision) (i : Inputs) : Outputs :=
  let f := decodedFields c i
  channelOutputs (decodedChannel c p f f.sx f.mx) (decodedChannel c p f f.sy f.my) (decodedChannel c p f f.sz f.mz)

/-- Completing an encode operation. -/
def runEncode (c : Codec) (p : Precision) (s : State) : Host.Outcome State Fault Refusal :=
  .next (s.settle (encodeOutputs c p s.ins))

/-- Completing a decode operation. -/
def runDecode (c : Codec) (p : Precision) (s : State) : Host.Outcome State Fault Refusal :=
  .next (s.settle (decodeOutputs c p s.ins))

/-- The one exceptional event, an illegal command (R102, R103): no operation runs, every result output is 0 and ERR is 1.
Nothing is saved, no mode changes and no control moves (R106); there is nothing to return from (R107). -/
def reportIllegal (s : State) : Host.Outcome State Fault Refusal := .next (s.settle illegalOutputs)

end Sys2Proof.Machine
end

