-- ==== Sys2Proof/Machine/Decoders.lean ====
section
/-! DEFINITION. The seven decode operations (42_decode.md R94 to R100), each over the common decode path of R93. -/

namespace Sys2Proof.Machine

/-- DEC.U9E5, CMD 0x08 (R94). -/
def execDecU9E5 (s : State) : Host.Outcome State Fault Refusal := runDecode .u9e5 .binary32 s

/-- DEC.S8E5, CMD 0x09 (R95). -/
def execDecS8E5 (s : State) : Host.Outcome State Fault Refusal := runDecode .s8e5 .binary32 s

/-- DEC.UR9E2, CMD 0x0A (R96). -/
def execDecUR9E2 (s : State) : Host.Outcome State Fault Refusal := runDecode .ur9e2 .binary32 s

/-- DEC.S13E6, CMD 0x0B (R97). -/
def execDecS13E6 (s : State) : Host.Outcome State Fault Refusal := runDecode .s13e6 .binary32 s

/-- DEC.UR14E3, CMD 0x0C (R98). -/
def execDecUR14E3 (s : State) : Host.Outcome State Fault Refusal := runDecode .ur14e3 .binary32 s

/-- DEC.S18E7.F32, CMD 0x0D (R99). -/
def execDecS18E7F32 (s : State) : Host.Outcome State Fault Refusal := runDecode .s18e7 .binary32 s

/-- DEC.S18E7.F64, CMD 0x1D (R100). -/
def execDecS18E7F64 (s : State) : Host.Outcome State Fault Refusal := runDecode .s18e7 .binary64 s

end Sys2Proof.Machine
end

