-- ==== Sys2Proof/Machine/Encoders.lean ====
section
/-! DEFINITION. The seven encode operations (41_encode.md R86 to R92), each over the common encode path of R85. -/

namespace Sys2Proof.Machine

/-- ENC.U9E5, CMD 0x00 (R86). -/
def execEncU9E5 (s : State) : Host.Outcome State Fault Refusal := runEncode .u9e5 .binary32 s

/-- ENC.S8E5, CMD 0x01 (R87). -/
def execEncS8E5 (s : State) : Host.Outcome State Fault Refusal := runEncode .s8e5 .binary32 s

/-- ENC.UR9E2, CMD 0x02 (R88). -/
def execEncUR9E2 (s : State) : Host.Outcome State Fault Refusal := runEncode .ur9e2 .binary32 s

/-- ENC.S13E6, CMD 0x03 (R89). -/
def execEncS13E6 (s : State) : Host.Outcome State Fault Refusal := runEncode .s13e6 .binary32 s

/-- ENC.UR14E3, CMD 0x04 (R90). -/
def execEncUR14E3 (s : State) : Host.Outcome State Fault Refusal := runEncode .ur14e3 .binary32 s

/-- ENC.S18E7.F32, CMD 0x05 (R91). -/
def execEncS18E7F32 (s : State) : Host.Outcome State Fault Refusal := runEncode .s18e7 .binary32 s

/-- ENC.S18E7.F64, CMD 0x15 (R92). -/
def execEncS18E7F64 (s : State) : Host.Outcome State Fault Refusal := runEncode .s18e7 .binary64 s

end Sys2Proof.Machine
end

