-- ==== Sys2Proof/Machine/Dispatch.lean ====
section
/-! DEFINITION. The meaning of every operation (10_state.md R28), one arm for each row of the opcode map. -/

namespace Sys2Proof.Machine

def exec (i : Instr) (s : State) : Host.Outcome State Fault Refusal :=
  match i with
  | .encU9E5 => Sys2Proof.Machine.execEncU9E5 s
  | .encS8E5 => Sys2Proof.Machine.execEncS8E5 s
  | .encUR9E2 => Sys2Proof.Machine.execEncUR9E2 s
  | .encS13E6 => Sys2Proof.Machine.execEncS13E6 s
  | .encUR14E3 => Sys2Proof.Machine.execEncUR14E3 s
  | .encS18E7F32 => Sys2Proof.Machine.execEncS18E7F32 s
  | .encS18E7F64 => Sys2Proof.Machine.execEncS18E7F64 s
  | .decU9E5 => Sys2Proof.Machine.execDecU9E5 s
  | .decS8E5 => Sys2Proof.Machine.execDecS8E5 s
  | .decUR9E2 => Sys2Proof.Machine.execDecUR9E2 s
  | .decS13E6 => Sys2Proof.Machine.execDecS13E6 s
  | .decUR14E3 => Sys2Proof.Machine.execDecUR14E3 s
  | .decS18E7F32 => Sys2Proof.Machine.execDecS18E7F32 s
  | .decS18E7F64 => Sys2Proof.Machine.execDecS18E7F64 s

end Sys2Proof.Machine
end

