-- ==== Sys2Proof/Machine/Step.lean ====
section
/-! DEFINITION. The step: one transaction (10_state.md R28), and how a command reaches it. -/

namespace Sys2Proof.Machine

/-- One transaction on the signals as the host drives them (R28): a legal command runs its operation, an illegal one is
reported on ERR. The inputs stay as the host left them (log entry 3). -/
def step (s : State) : Host.Outcome State Fault Refusal :=
  match decode s.ins.cmd with
  | .ok i => exec i s
  | .error _ => reportIllegal s

/-- The state in which the host drives the command word `w` on CMD (R23, R37: the block fetches nothing, CMD is driven for
each transaction). A command is 8 bits whatever `_nbits` says (R54). -/
def State.withFetchWord (s : State) (_nbits w : Nat) : State :=
  { s with ins := { s.ins with cmd := BitVec.ofNat 8 w } }

end Sys2Proof.Machine
end

