-- ==== Sys2Proof/Config.lean ====
section
/-! DEFINITION. The parameters the spec leaves open (00_scope.md R6) and the free value of an early sample
(70_reset_and_hazards.md R118). None has a body: nothing can be proved of its value. -/

namespace Sys2Proof

/-- Byte order of a host that stores packed words. -/
inductive ByteOrder where
  | littleEndian | bigEndian
deriving DecidableEq, Repr, Inhabited

/-- Which of word A and word B a host stores at the lower address (20_memory.md R31). -/
inductive WordOrder where
  | wordAFirst | wordBFirst
deriving DecidableEq, Repr, Inhabited

/-- The two choices HOST_BYTE_ORDER covers (R30, R31, 92_eei_decisions.md D18). -/
structure HostByteOrder where
  bytes : ByteOrder
  words : WordOrder
deriving DecidableEq, Repr, Inhabited

namespace Config

/-- LATENCY (R6, R119): OPEN, the same for every operation and operand. Log entry 5. -/
opaque latency : Nat

/-- HOST_BYTE_ORDER (R6, R30): OPEN. "No rule depends on it", and no definition of the model reads it: serialisation is
out of scope (00_scope.md R5). Log entry 6. -/
opaque hostByteOrder : HostByteOrder

/-- What a 64-bit output port shows when it is sampled before it has settled (R118: "any value"), for the n-th free
value drawn. Log entry 5. -/
opaque unsettledPort : Nat → BitVec 64

end Config

end Sys2Proof
end

