-- ==== Sys2Proof/Machine/Timing.lean ====
section
/-! DEFINITION. Sampling the outputs in time (70_reset_and_hazards.md R118, R119). The step relation needs no time; this
says what a host that samples at a given time sees. -/

namespace Sys2Proof.Machine

/-- Six free values for the output ports, drawn from the n-th on (R118: "any value"). Log entry 5. -/
def unsettledOutputs (n : Nat) : Outputs :=
  { outA := (Config.unsettledPort n).truncate 32
    outB := (Config.unsettledPort (n + 1)).truncate 32
    outX := Config.unsettledPort (n + 2)
    outY := Config.unsettledPort (n + 3)
    outZ := Config.unsettledPort (n + 4)
    err := (Config.unsettledPort (n + 5)).truncate 1 }

/-- The state a host has after it drives `i`, waits `elapsed` from the last change of an input the transaction reads, and
samples: the settled step at LATENCY or later, and any outputs before (R118). `n` numbers the free values. -/
def sample (s : State) (i : Inputs) (elapsed n : Nat) : Host.Outcome State Fault Refusal :=
  if Config.latency ≤ elapsed then step (s.drive i) else .next ((s.drive i).settle (unsettledOutputs n))

end Sys2Proof.Machine
end

