-- ==== Sys2Proof/Machine/Exact.lean ====
section
/-! DEFINITION. The rules of the numeric engine in the arithmetic the spec writes them in: exact rationals (00_scope.md
R9). The machine computes with integers and shifts; these are what its results are measured against. -/

namespace Sys2Proof

namespace Machine

/-- The rational value of a magnitude of `n` units. -/
def magValue (p : Precision) (n : Nat) : ℚ := (n : ℚ) * 2 ^ p.unitExp

/-- The magnitude of a finite pattern, as R12 writes it. -/
def ieeeMagnitude (p : Precision) (b : Nat) : ℚ :=
  if expOf p b = 0 then (fracOf p b : ℚ) * 2 ^ (1 - (p.expBias : ℤ) - p.fracBits)
  else ((2 ^ p.fracBits + fracOf p b : ℕ) : ℚ) * 2 ^ ((expOf p b : ℤ) - p.expBias - p.fracBits)

/-- `(-1)^s * v`. -/
def applySign (s : Bool) (v : ℚ) : ℚ := if s then -v else v

/-- The value of a pattern, where it is finite (R12). -/
def ieeeValue (p : Precision) (b : Nat) : ℚ := applySign (signOf p b) (ieeeMagnitude p b)

/-- A pattern is a NaN (R12). -/
abbrev IsNaN (p : Precision) (b : Nat) : Prop := expOf p b = p.expAllOnes ∧ fracOf p b ≠ 0

/-- A pattern is an infinity (R12). -/
abbrev IsInf (p : Precision) (b : Nat) : Prop := expOf p b = p.expAllOnes ∧ fracOf p b = 0

/-- A pattern is finite (R12). -/
abbrev IsFinite (p : Precision) (b : Nat) : Prop := expOf p b ≠ p.expAllOnes

/-- A pattern is a normal value (R12). -/
abbrev IsNormal (p : Precision) (b : Nat) : Prop := expOf p b ≠ 0 ∧ expOf p b ≠ p.expAllOnes

/-- A pattern is a zero of either sign (R12). -/
abbrev IsZero (p : Precision) (b : Nat) : Prop := expOf p b = 0 ∧ fracOf p b = 0

/-- `Condition` on rationals (R64). -/
def conditionExact (c : Codec) (p : Precision) (b : Nat) : Bool × ℚ :=
  if IsNaN p b then (false, 0)
  else
    let v : ℚ := if IsInf p b then c.clampConstant else min (ieeeMagnitude p b) c.clampConstant
    if c.signed then (signOf p b, v) else if signOf p b then (false, 0) else (false, v)

/-- `RHU(q) = floor(q + 1/2)` (R74). -/
def rhuExact (q : ℚ) : ℤ := ⌊q + 1 / 2⌋

/-- Step 1 on rationals (R66, R67); `Int.log 2 v` is the `k` with `2^k ≤ v < 2^(k+1)`. -/
def startExpExact (f : FormatParams) (maxmag : ℚ) : ℤ :=
  (if maxmag = 0 then -(f.expBias : ℤ) - 1 else max (-(f.expBias : ℤ) - 1) (Int.log 2 maxmag)) + 1 + f.expBias

/-- The denominator at exponent `e`, `2^(e - exp_bias - M)` (R68). -/
def denomExact (f : FormatParams) (e : ℤ) : ℚ := 2 ^ (e - f.expBias - f.manBits)

/-- Steps 1 to 4 and the saturation on rationals (R67 to R72). -/
def sharedExpExact (f : FormatParams) (maxmag : ℚ) : ℤ :=
  let e0 := startExpExact f maxmag
  let maxm := rhuExact (maxmag / denomExact f e0)
  let e1 := if maxm = f.mantissaValues then e0 + 1 else e0
  min e1 f.maxValidBiasedExp

/-- `Quantize` on rationals (R75). -/
def quantizeExact (f : FormatParams) (c denom : ℚ) : ℤ := min (rhuExact (c / denom)) f.maxMantissa

/-- The decoded value of a channel, `(-1)^s * m * 2^(e - exp_bias - M)` (R78). -/
def decodedValue (f : FormatParams) (e : Nat) (s : Bool) (m : Nat) : ℚ :=
  applySign s ((m : ℚ) * denomExact f e)

/-- The largest magnitude a round trip can give, `min(K, GMAX)` (R83, R84). -/
def gridMax (c : Codec) : ℚ := min (c.clampConstant : ℚ) c.params.gmax

end Machine

end Sys2Proof
end

