-- ==== Sys2Proof/Safety.lean ====
section
/-! DEFINITION. What the rules promise of every settled transaction: the terms the statements use. -/

namespace Sys2Proof.Machine

/-- The step function of R28, from the input record to the output record. -/
def blockStep (i : Inputs) : Outputs :=
  match decode i.cmd with
  | .ok op =>
    match op.direction with
    | .encode => encodeOutputs op.codec op.precision i
    | .decode => decodeOutputs op.codec op.precision i
  | .error _ => illegalOutputs

/-- The outputs are those of the inputs now driven (R27, R115). -/
abbrev State.Settled (s : State) : Prop := s.outs = blockStep s.ins

/-- A transaction with a legal command: ERR is 0 (R21, R101). -/
abbrev State.Safe (s : State) : Prop := s.outs.err = 0

/-- Every result output is 0. -/
abbrev Outputs.NoResult (o : Outputs) : Prop :=
  o.outA = 0 ∧ o.outB = 0 ∧ o.outX = 0 ∧ o.outY = 0 ∧ o.outZ = 0

/-- The word outputs are 0 (R19). -/
abbrev Outputs.NoWords (o : Outputs) : Prop := o.outA = 0 ∧ o.outB = 0

/-- The channel outputs are 0 (R20). -/
abbrev Outputs.NoChannels (o : Outputs) : Prop := o.outX = 0 ∧ o.outY = 0 ∧ o.outZ = 0

/-- A port holds a decoded pattern of a precision: a zero of either sign or a normal value, in the range of biased
exponents R79 gives, with nothing above the pattern (R20, R79). -/
abbrev DecodedPort (p : Precision) (lo hi : Nat) (w : ChannelWord) : Prop :=
  w.toNat < 2 ^ p.width ∧ (IsZero p w.toNat ∨ (lo ≤ expOf p w.toNat ∧ expOf p w.toNat ≤ hi))

/-- What any settled output record looks like, whatever the inputs were (R19 to R21, R79, R102): an error report with no
result, an encode result with no channels, or a decode result with no words and three channels that are binary32
patterns (biased exponent 46 to 190) or three that are binary64 patterns (942 to 1086). -/
abbrev Outputs.WellFormed (o : Outputs) : Prop :=
  (o.err = 1 ∧ o.NoResult) ∨
  (o.err = 0 ∧ o.NoChannels) ∨
  (o.err = 0 ∧ o.NoWords ∧ DecodedPort .binary32 46 190 o.outX ∧ DecodedPort .binary32 46 190 o.outY ∧
    DecodedPort .binary32 46 190 o.outZ) ∨
  (o.err = 0 ∧ o.NoWords ∧ DecodedPort .binary64 942 1086 o.outX ∧ DecodedPort .binary64 942 1086 o.outY ∧
    DecodedPort .binary64 942 1086 o.outZ)

/-- The three lanes of an operation (R80). -/
inductive Lane where
  | x | y | z
deriving DecidableEq, Repr

/-- The channel input port of a lane. -/
def Inputs.port (i : Inputs) : Lane → ChannelWord
  | .x => i.inX
  | .y => i.inY
  | .z => i.inZ

/-- The channel output port of a lane. -/
def Outputs.port (o : Outputs) : Lane → ChannelWord
  | .x => o.outX
  | .y => o.outY
  | .z => o.outZ

/-- The mantissa field of a lane. -/
def Fields.man (f : Fields) : Lane → Nat
  | .x => f.mx
  | .y => f.my
  | .z => f.mz

/-- The sign field of a lane. -/
def Fields.sgn (f : Fields) : Lane → Bool
  | .x => f.sx
  | .y => f.sy
  | .z => f.sz

/-- The pattern an operation reads on a lane (R17). -/
def laneBits (p : Precision) (i : Inputs) (l : Lane) : Nat := channelBits p (i.port l)

/-- The conditioned magnitude of a lane, in units (R64). -/
def laneMag (c : Codec) (p : Precision) (i : Inputs) (l : Lane) : Nat := (condition c p (laneBits p i l)).mag

/-- `maxmag` of the three lanes (R65). -/
def maxMag (c : Codec) (p : Precision) (i : Inputs) : Nat :=
  max (laneMag c p i .x) (max (laneMag c p i .y) (laneMag c p i .z))

/-- A subnormal pattern (R12). -/
abbrev IsSubnormal (p : Precision) (b : Nat) : Prop := expOf p b = 0 ∧ fracOf p b ≠ 0

/-- A pattern is an infinity, or finite with a magnitude of at least `v`. -/
abbrev MagAtLeast (p : Precision) (b : Nat) (v : ℚ) : Prop := IsInf p b ∨ (IsFinite p b ∧ v ≤ ieeeMagnitude p b)

/-- Two patterns, a binary32 one and a binary64 one, of the same datum: both NaN, or of the same class, sign and exact
magnitude (R84, "the same value widened to binary64"). -/
abbrev SameDatum (b32 b64 : Nat) : Prop :=
  (IsNaN .binary32 b32 ∧ IsNaN .binary64 b64) ∨
  (signOf .binary32 b32 = signOf .binary64 b64 ∧
    ((IsInf .binary32 b32 ∧ IsInf .binary64 b64) ∨
     (IsFinite .binary32 b32 ∧ IsFinite .binary64 b64 ∧
       ieeeMagnitude .binary32 b32 = ieeeMagnitude .binary64 b64)))

/-- A host move: the word results become the word operands (R120, P1). -/
def State.feedWords (s : State) : State := s.drive { s.ins with inA := s.outs.outA, inB := s.outs.outB }

/-- A host move: the channel results become the channel operands (R120, P4). -/
def State.feedChannels (s : State) : State :=
  s.drive { s.ins with inX := s.outs.outX, inY := s.outs.outY, inZ := s.outs.outZ }

/-- The encode and the decode operation of one codec and one precision. -/
abbrev Paired (enc dec : Instr) : Prop :=
  enc.direction = .encode ∧ dec.direction = .decode ∧ enc.codec = dec.codec ∧ enc.precision = dec.precision

end Sys2Proof.Machine
end

