-- ==== Sys2Proof/Certificates/Slice0/Obligations.lean ====
section
/-! DEFINITION. The statements about the block, from the numbered rules of spec/. -/

open Sys2Proof Sys2Proof.Machine

/-- Six command words written bit by bit from the opcode map decode to ENC.U9E5, ENC.UR14E3, ENC.S18E7.F64, DEC.S8E5,
DEC.S13E6 and DEC.S18E7.F64. (30_encoding.md R41.) -/
def Obligations.CommandWordsDecode : Prop :=
  decode 0b00000000#8 = .ok .encU9E5 ∧ decode 0b00000100#8 = .ok .encUR14E3 ∧ decode 0b00010101#8 = .ok .encS18E7F64 ∧
    decode 0b00001001#8 = .ok .decS8E5 ∧ decode 0b00001011#8 = .ok .decS13E6 ∧ decode 0b00011101#8 = .ok .decS18E7F64

/-- For every operation i, decode of encode i is i, and a command word decodes to i only if it is encode i: the
decoder is the fourteen-row table of R41 and nothing else. (30_encoding.md R40, R41.) -/
def Obligations.CommandEncodingsRoundTrip : Prop :=
  (∀ i : Instr, i.WellFormed → decode (encode i) = .ok i) ∧ ∀ (w : CommandWord) (i : Instr), decode w = .ok i → encode i = w

/-- For every command word: Legal(CMD) is bits [7:5] = 0, bits [2:0] at most 5 and bit 4 = 0 unless bits [2:0] = 5;
and the word decodes to an operation exactly when it is legal. (R39.) -/
def Obligations.LegalCommandIffDecodes : Prop :=
  ∀ w : CommandWord,
    (LegalCommand w ↔ w.toNat / 32 = 0 ∧ w.toNat % 8 ≤ 5 ∧ (w.toNat / 16 % 2 = 0 ∨ w.toNat % 8 = 5)) ∧
    (LegalCommand w ↔ ∃ i, decode w = .ok i)

/-- Counting all 256 command words: 14 decode, 224 are rejected for RSVD, 8 for CODEC and 10 for PREC. (30_encoding.md
R42.) -/
def Obligations.IllegalCommandGroups : Prop :=
  let words := (List.range 256).map (fun n => decode (BitVec.ofNat 8 n))
  words.countP (fun r => match r with | .ok _ => true | .error _ => false) = 14 ∧
  words.countP (fun r => match r with | .error (.reservedBits _) => true | _ => false) = 224 ∧
  words.countP (fun r => match r with | .error (.reservedCodec _) => true | _ => false) = 8 ∧
  words.countP (fun r => match r with | .error (.precisionNotAvailable _) => true | _ => false) = 10

/-- When CMD decodes to an operation i, step is exec of i at that state; nothing is added around it, because the block
fetches nothing and has no program counter. (10_state.md R28, R23.) -/
def Obligations.StepRunsDecodedCommand : Prop :=
  ∀ (s : State) (i : Instr), decode s.ins.cmd = .ok i → step s = exec i s

/-- For every state with an illegal command, step answers the next state with the inputs unchanged, every result
output 0 and ERR 1; a transaction the host drives after it gives exactly what it gives without it. (R102.) -/
def Obligations.IllegalCommandReportsErr : Prop :=
  ∀ s : State, ¬ LegalCommand s.ins.cmd →
    ∃ t, step s = .next t ∧
      t = { ins := s.ins, outs := { outA := 0, outB := 0, outX := 0, outY := 0, outZ := 0, err := 1 } } ∧
      ∀ i : Inputs, step (t.drive i) = step (s.drive i)

/-- For every state, step answers a next state whose inputs are unchanged and whose ERR is 1 if CMD is illegal and 0
if it is legal, whatever ERR was before. (R21.) -/
def Obligations.ErrFollowsLegality : Prop :=
  ∀ s : State, ∃ t, step s = .next t ∧ t.ins = s.ins ∧
    (¬ LegalCommand s.ins.cmd → t.outs.err = 1) ∧ (LegalCommand s.ins.cmd → t.outs.err = 0)

/-- For every state, step answers the next state with the same inputs and, as outputs, blockStep of the inputs: the
illegal report, or the encode or decode path of the operation's codec and precision. And exec of any operation i on
any state gives the outputs of blockStep for the command word of i. (10_state.md R28, 60_exceptions.md R101.) -/
def Obligations.StepIsBlockStep : Prop :=
  (∀ s : State, step s = .next { s with outs := blockStep s.ins }) ∧
  ∀ (i : Instr) (s : State), exec i s = .next { s with outs := blockStep { s.ins with cmd := encode i } }

/-- Whatever two states the block is in, driving the same inputs gives the same step; in particular a transaction
gives the same result after any other transaction. (R14, R35.) -/
def Obligations.TransactionsIndependent : Prop :=
  (∀ (s t : State) (i : Inputs), step (s.drive i) = step (t.drive i)) ∧
  ∀ (s t : State) (i j : Inputs), step (s.drive i) = .next t → step (t.drive j) = step (s.drive j)

/-- If a step answers t, a further step on the inputs t still holds answers t again. (20_memory.md R33.) -/
def Obligations.TransactionIdempotent : Prop :=
  ∀ s t : State, step s = .next t → step t = .next t

/-- The outputs at reset equal Step applied to the reset inputs. The inputs' reset values are the model's own choice
(log entry 1), so the output values are too (log entry 2). (70_reset_and_hazards.md R115.) -/
def Obligations.ResetIsSettled : Prop :=
  State.reset.Settled ∧ step State.reset = .next State.reset

/-- The outputs at reset satisfy the invariant StepKeepsOutputsWellFormed states. They are the model's choice (log
entries 1 and 2). (10_state.md R19 to R21.) -/
def Obligations.OutputsWellFormedAtReset : Prop :=
  State.reset.outs.WellFormed

/-- From every state, with well-formed outputs or not, step answers a state t whose output record is well formed, so
every step keeps the invariant: ERR 1 with no result; or ERR 0 with channel outputs 0; or ERR 0 with word outputs 0
and three ports that each hold a zero or a normal value of one precision, with biased exponent 46 to 190 (binary32,
upper half 0) or 942 to 1086 (binary64). No NaN, infinity or subnormal is ever output. (10_state.md R19, R20, R21,
40_numeric_engine.md R79.) -/
def Obligations.StepKeepsOutputsWellFormed : Prop :=
  ∀ s : State, ∃ t, step s = .next t ∧ t.outs.WellFormed

/-- For every state, exec of ENC.U9E5 answers the next state whose inputs are unchanged, whose word outputs are the
fields of EncodeFields placed by the shifts and ORs R86 writes out, whose channel outputs are 0 and whose ERR is 0.
(41_encode.md R86 (pseudocode).) -/
def Obligations.EncodeU9E5Result : Prop :=
  ∀ s : State, let f := encodedFields .u9e5 .binary32 s.ins
    exec .encU9E5 s = .next { s with outs :=
      { outA := BitVec.ofNat 32 ((f.e <<< 27) ||| (f.mz <<< 18) ||| (f.my <<< 9) ||| f.mx)
        outB := 0
        outX := 0, outY := 0, outZ := 0, err := 0 } }

/-- For every state, exec of ENC.S8E5 answers the next state whose inputs are unchanged, whose word outputs are the
fields of EncodeFields placed by the shifts and ORs R87 writes out, whose channel outputs are 0 and whose ERR is 0.
(41_encode.md R87 (pseudocode).) -/
def Obligations.EncodeS8E5Result : Prop :=
  ∀ s : State, let f := encodedFields .s8e5 .binary32 s.ins
    exec .encS8E5 s = .next { s with outs :=
      { outA := BitVec.ofNat 32 ((f.e <<< 27) ||| (((f.sz.toNat <<< 8) ||| f.mz) <<< 18) ||| (((f.sy.toNat <<< 8) ||| f.my) <<< 9) |||
          ((f.sx.toNat <<< 8) ||| f.mx))
        outB := 0
        outX := 0, outY := 0, outZ := 0, err := 0 } }

/-- For every state, exec of ENC.UR9E2 answers the next state whose inputs are unchanged, whose word outputs are the
fields of EncodeFields placed by the shifts and ORs R88 writes out, whose channel outputs are 0 and whose ERR is 0.
(41_encode.md R88 (pseudocode).) -/
def Obligations.EncodeUR9E2Result : Prop :=
  ∀ s : State, let f := encodedFields .ur9e2 .binary32 s.ins
    exec .encUR9E2 s = .next { s with outs :=
      { outA := BitVec.ofNat 32 ((f.e <<< 30) ||| (((f.sz.toNat <<< 9) ||| f.mz) <<< 20) ||| (((f.sy.toNat <<< 9) ||| f.my) <<< 10) |||
          ((f.sx.toNat <<< 9) ||| f.mx))
        outB := 0
        outX := 0, outY := 0, outZ := 0, err := 0 } }

/-- For every state, exec of ENC.S13E6 answers the next state whose inputs are unchanged, whose word outputs are the
fields of EncodeFields placed by the shifts and ORs R89 writes out, whose channel outputs are 0 and whose ERR is 0.
(41_encode.md R89 (pseudocode).) -/
def Obligations.EncodeS13E6Result : Prop :=
  ∀ s : State, let f := encodedFields .s13e6 .binary32 s.ins
    exec .encS13E6 s = .next { s with outs :=
      { outA := BitVec.ofNat 32 ((f.e <<< 26) ||| (f.my <<< 13) ||| f.mx)
        outB := BitVec.ofNat 32
          ((f.sz.toNat <<< 15) ||| (f.sy.toNat <<< 14) ||| (f.sx.toNat <<< 13) ||| f.mz)
        outX := 0, outY := 0, outZ := 0, err := 0 } }

/-- For every state, exec of ENC.UR14E3 answers the next state whose inputs are unchanged, whose word outputs are the
fields of EncodeFields placed by the shifts and ORs R90 writes out, whose channel outputs are 0 and whose ERR is 0.
(41_encode.md R90 (pseudocode).) -/
def Obligations.EncodeUR14E3Result : Prop :=
  ∀ s : State, let f := encodedFields .ur14e3 .binary32 s.ins
    exec .encUR14E3 s = .next { s with outs :=
      { outA := BitVec.ofNat 32 ((bf f.e 0 1 <<< 31) ||| (f.sz.toNat <<< 30) ||| (f.sy.toNat <<< 29) ||| (f.sx.toNat <<< 28) |||
          (f.my <<< 14) ||| f.mx)
        outB := BitVec.ofNat 32
          ((bf f.e 1 2 <<< 14) ||| f.mz)
        outX := 0, outY := 0, outZ := 0, err := 0 } }

/-- For every state, exec of ENC.S18E7.F32 answers the next state whose inputs are unchanged, whose word outputs are
the fields of EncodeFields placed by the shifts and ORs R91 writes out, whose channel outputs are 0 and whose ERR is
0. (41_encode.md R91 (pseudocode).) -/
def Obligations.EncodeS18E7F32Result : Prop :=
  ∀ s : State, let f := encodedFields .s18e7 .binary32 s.ins
    exec .encS18E7F32 s = .next { s with outs :=
      { outA := BitVec.ofNat 32 ((bf f.my 0 14 <<< 18) ||| f.mx)
        outB := BitVec.ofNat 32
          ((f.e <<< 25) ||| (f.sz.toNat <<< 24) ||| (f.sy.toNat <<< 23) ||| (f.sx.toNat <<< 22) |||
          (f.mz <<< 4) ||| bf f.my 14 4)
        outX := 0, outY := 0, outZ := 0, err := 0 } }

/-- For every state, exec of ENC.S18E7.F64 answers the next state whose inputs are unchanged, whose word outputs are
the fields of EncodeFields placed by the shifts and ORs R92 writes out, whose channel outputs are 0 and whose ERR is
0. (41_encode.md R92 (pseudocode).) -/
def Obligations.EncodeS18E7F64Result : Prop :=
  ∀ s : State, let f := encodedFields .s18e7 .binary64 s.ins
    exec .encS18E7F64 s = .next { s with outs :=
      { outA := BitVec.ofNat 32 ((bf f.my 0 14 <<< 18) ||| f.mx)
        outB := BitVec.ofNat 32
          ((f.e <<< 25) ||| (f.sz.toNat <<< 24) ||| (f.sy.toNat <<< 23) ||| (f.sx.toNat <<< 22) |||
          (f.mz <<< 4) ||| bf f.my 14 4)
        outX := 0, outY := 0, outZ := 0, err := 0 } }

/-- For every state, exec of DEC.U9E5 answers the next state whose inputs are unchanged, whose channel outputs are
ToIEEE of the fields R94 cuts from the word ports at exponent e - 24, whose word outputs are 0 and whose ERR is 0.
(42_decode.md R94 (pseudocode).) -/
def Obligations.DecodeU9E5Result : Prop :=
  ∀ s : State, let a := s.ins.inA.toNat
    let e : ℤ := bf a 27 5; let mz := bf a 18 9; let my := bf a 9 9; let mx := bf a 0 9
    exec .decU9E5 s = .next { s with outs :=
      { outA := 0, outB := 0
        outX := BitVec.ofNat 64 (toIeee .binary32 false mx (e - 24))
        outY := BitVec.ofNat 64 (toIeee .binary32 false my (e - 24))
        outZ := BitVec.ofNat 64 (toIeee .binary32 false mz (e - 24))
        err := 0 } }

/-- For every state, exec of DEC.S8E5 answers the next state whose inputs are unchanged, whose channel outputs are
ToIEEE of the fields R95 cuts from the word ports at exponent e - 23, whose word outputs are 0 and whose ERR is 0.
(42_decode.md R95 (pseudocode).) -/
def Obligations.DecodeS8E5Result : Prop :=
  ∀ s : State, let a := s.ins.inA.toNat
    let e : ℤ := bf a 27 5; let sz := bf a 26 1 == 1; let mz := bf a 18 8; let sy := bf a 17 1 == 1; let my := bf a 9 8
    let sx := bf a 8 1 == 1; let mx := bf a 0 8
    exec .decS8E5 s = .next { s with outs :=
      { outA := 0, outB := 0
        outX := BitVec.ofNat 64 (toIeee .binary32 sx mx (e - 23))
        outY := BitVec.ofNat 64 (toIeee .binary32 sy my (e - 23))
        outZ := BitVec.ofNat 64 (toIeee .binary32 sz mz (e - 23))
        err := 0 } }

/-- For every state, exec of DEC.UR9E2 answers the next state whose inputs are unchanged, whose channel outputs are
ToIEEE of the fields R96 cuts from the word ports at exponent e - 10, whose word outputs are 0 and whose ERR is 0.
(42_decode.md R96 (pseudocode).) -/
def Obligations.DecodeUR9E2Result : Prop :=
  ∀ s : State, let a := s.ins.inA.toNat
    let e : ℤ := bf a 30 2; let sz := bf a 29 1 == 1; let mz := bf a 20 9; let sy := bf a 19 1 == 1; let my := bf a 10 9
    let sx := bf a 9 1 == 1; let mx := bf a 0 9
    exec .decUR9E2 s = .next { s with outs :=
      { outA := 0, outB := 0
        outX := BitVec.ofNat 64 (toIeee .binary32 sx mx (e - 10))
        outY := BitVec.ofNat 64 (toIeee .binary32 sy my (e - 10))
        outZ := BitVec.ofNat 64 (toIeee .binary32 sz mz (e - 10))
        err := 0 } }

/-- For every state, exec of DEC.S13E6 answers the next state whose inputs are unchanged, whose channel outputs are
ToIEEE of the fields R97 cuts from the word ports at exponent e - 44, whose word outputs are 0 and whose ERR is 0.
(42_decode.md R97 (pseudocode).) -/
def Obligations.DecodeS13E6Result : Prop :=
  ∀ s : State, let a := s.ins.inA.toNat; let b := s.ins.inB.toNat
    let e : ℤ := bf a 26 6; let my := bf a 13 13; let mx := bf a 0 13
    let sz := bf b 15 1 == 1; let sy := bf b 14 1 == 1; let sx := bf b 13 1 == 1; let mz := bf b 0 13
    exec .decS13E6 s = .next { s with outs :=
      { outA := 0, outB := 0
        outX := BitVec.ofNat 64 (toIeee .binary32 sx mx (e - 44))
        outY := BitVec.ofNat 64 (toIeee .binary32 sy my (e - 44))
        outZ := BitVec.ofNat 64 (toIeee .binary32 sz mz (e - 44))
        err := 0 } }

/-- For every state, exec of DEC.UR14E3 answers the next state whose inputs are unchanged, whose channel outputs are
ToIEEE of the fields R98 cuts from the word ports at exponent e - 17, whose word outputs are 0 and whose ERR is 0.
(42_decode.md R98 (pseudocode).) -/
def Obligations.DecodeUR14E3Result : Prop :=
  ∀ s : State, let a := s.ins.inA.toNat; let b := s.ins.inB.toNat
    let e : ℤ := (bf b 14 2 * 2 + bf a 31 1 : ℕ); let sz := bf a 30 1 == 1; let sy := bf a 29 1 == 1
    let sx := bf a 28 1 == 1; let my := bf a 14 14; let mx := bf a 0 14; let mz := bf b 0 14
    exec .decUR14E3 s = .next { s with outs :=
      { outA := 0, outB := 0
        outX := BitVec.ofNat 64 (toIeee .binary32 sx mx (e - 17))
        outY := BitVec.ofNat 64 (toIeee .binary32 sy my (e - 17))
        outZ := BitVec.ofNat 64 (toIeee .binary32 sz mz (e - 17))
        err := 0 } }

/-- For every state, exec of DEC.S18E7.F32 answers the next state whose inputs are unchanged, whose channel outputs
are ToIEEE of the fields R99 cuts from the word ports at exponent e - 81, whose word outputs are 0 and whose ERR is 0.
(42_decode.md R99 (pseudocode).) -/
def Obligations.DecodeS18E7F32Result : Prop :=
  ∀ s : State, let a := s.ins.inA.toNat; let b := s.ins.inB.toNat
    let e : ℤ := bf b 25 7; let sz := bf b 24 1 == 1; let sy := bf b 23 1 == 1; let sx := bf b 22 1 == 1
    let mz := bf b 4 18; let my := bf b 0 4 * 2 ^ 14 + bf a 18 14; let mx := bf a 0 18
    exec .decS18E7F32 s = .next { s with outs :=
      { outA := 0, outB := 0
        outX := BitVec.ofNat 64 (toIeee .binary32 sx mx (e - 81))
        outY := BitVec.ofNat 64 (toIeee .binary32 sy my (e - 81))
        outZ := BitVec.ofNat 64 (toIeee .binary32 sz mz (e - 81))
        err := 0 } }

/-- For every state, exec of DEC.S18E7.F64 answers the next state whose inputs are unchanged, whose channel outputs
are ToIEEE of the fields R100 cuts from the word ports at exponent e - 81, whose word outputs are 0 and whose ERR is
0. (42_decode.md R100 (pseudocode).) -/
def Obligations.DecodeS18E7F64Result : Prop :=
  ∀ s : State, let a := s.ins.inA.toNat; let b := s.ins.inB.toNat
    let e : ℤ := bf b 25 7; let sz := bf b 24 1 == 1; let sy := bf b 23 1 == 1; let sx := bf b 22 1 == 1
    let mz := bf b 4 18; let my := bf b 0 4 * 2 ^ 14 + bf a 18 14; let mx := bf a 0 18
    exec .decS18E7F64 s = .next { s with outs :=
      { outA := 0, outB := 0
        outX := BitVec.ofNat 64 (toIeee .binary64 sx mx (e - 81))
        outY := BitVec.ofNat 64 (toIeee .binary64 sy my (e - 81))
        outZ := BitVec.ofNat 64 (toIeee .binary64 sz mz (e - 81))
        err := 0 } }

/-- For every pattern of the precision's width: the class is NaN, infinity or finite by R12's fields (written with div
and mod), the sign is the top bit, and a finite pattern's magnitude in units is exactly the rational magnitude of R12.
(40_numeric_engine.md R60, 00_scope.md R12.) -/
def Obligations.ClassifyExact : Prop :=
  ∀ (p : Precision) (b : Nat), b < 2 ^ p.width →
    let r := classify p b
    let exponent := b / 2 ^ p.fracBits % 2 ^ p.expFieldBits
    let fraction := b % 2 ^ p.fracBits
    (r.cls = .nan ↔ exponent = p.expAllOnes ∧ fraction ≠ 0) ∧
    (r.cls = .inf ↔ exponent = p.expAllOnes ∧ fraction = 0) ∧
    (r.sign = true ↔ 2 ^ (p.width - 1) ≤ b) ∧
    (r.cls = .fin → magValue p r.mag =
      if exponent = 0 then (fraction : ℚ) * 2 ^ (1 - (p.expBias : ℤ) - p.fracBits)
      else (2 ^ p.fracBits + fraction : ℚ) * 2 ^ ((exponent : ℤ) - p.expBias - p.fracBits))

/-- For every codec, precision and pattern, Condition gives the sign and the exact rational magnitude of R64's
function: (0, 0) for a NaN, K for an infinity, min(mag, K) for a finite value with the sign kept in a signed codec,
and (0, 0) for a set sign bit in the unsigned codec; the magnitude lies in [0, K]. (R64.) -/
def Obligations.ConditionExact : Prop :=
  ∀ (c : Codec) (p : Precision) (b : Nat),
    let r := condition c p b
    (r.sign, magValue p r.mag) = conditionExact c p b ∧ 0 ≤ magValue p r.mag ∧ magValue p r.mag ≤ c.clampConstant

/-- For every parameter pair and magnitude of n units: FloorLog2 of a positive magnitude v is the k with 2^k <= v <
2^(k+1); e0 is max(-exp_bias - 1, FloorLog2(v)) + 1 + exp_bias; e0 is never negative, and is 0 for magnitude 0. (R67.)
-/
def Obligations.StartExponentExact : Prop :=
  ∀ (f : FormatParams) (p : Precision) (n : Nat),
    0 ≤ startExp f p n ∧ startExp f p 0 = 0 ∧
    (0 < n → (2 : ℚ) ^ floorLog2 p n ≤ magValue p n ∧ magValue p n < 2 ^ (floorLog2 p n + 1) ∧
      startExp f p n = max (-(f.expBias : ℤ) - 1) (floorLog2 p n) + 1 + f.expBias)

/-- For every parameter pair and magnitude, maxm is floor(maxmag / d0 + 1/2) with d0 = 2^(e0 - exp_bias - M), and maxm
<= mantissa_values. (R68, R69.) -/
def Obligations.StartMantissaBound : Prop :=
  ∀ (f : FormatParams) (p : Precision) (n : Nat),
    (startMantissa f p n : ℤ) = ⌊magValue p n / 2 ^ (startExp f p n - f.expBias - f.manBits) + 1 / 2⌋ ∧
    startMantissa f p n ≤ f.mantissaValues

/-- For every parameter pair and magnitude: e1 is e0 + 1 if maxm = mantissa_values and e0 otherwise, and maxm =
mantissa_values exactly when maxmag >= (mantissa_values - 1/2) * d0, the tie included. (R70.) -/
def Obligations.CarryFiresExactly : Prop :=
  ∀ (f : FormatParams) (p : Precision) (n : Nat),
    (startMantissa f p n = f.mantissaValues → carriedExp f p n = startExp f p n + 1) ∧
    (startMantissa f p n ≠ f.mantissaValues → carriedExp f p n = startExp f p n) ∧
    (startMantissa f p n = f.mantissaValues ↔
      ((f.mantissaValues : ℚ) - 1 / 2) * denomExact f (startExp f p n) ≤ magValue p n)

/-- For every parameter pair and magnitude, the integer selector gives the exponent of R72's function evaluated on
rationals, and its denominator is 2^(e - exp_bias - M) for that saturated exponent. (R72.) -/
def Obligations.SelectExponentExact : Prop :=
  ∀ (f : FormatParams) (p : Precision) (n : Nat),
    let r := selectExponent f p n
    (r.e : ℤ) = sharedExpExact f (magValue p n) ∧
    (2 : ℚ) ^ r.denomExp = denomExact f r.e ∧
    r.e ≤ f.maxValidBiasedExp ∧
    (carriedExp f p n ≤ f.maxValidBiasedExp →
      (2 : ℚ) ^ r.denomExp = (if startMantissa f p n = f.mantissaValues then 2 else 1) * denomExact f (startExp f p n))

/-- For every codec, precision and magnitude at most K: e <= max_valid_biased_exp; e = 0 whenever maxmag <
(mantissa_values - 1/2) * 2^(-exp_bias - M); and for UR9E2 e <= 2. (R73.) -/
def Obligations.SelectorRange : Prop :=
  ∀ (c : Codec) (p : Precision) (n : Nat), n ≤ c.clampUnits p →
    (selectExponent c.params p n).e ≤ c.params.maxValidBiasedExp ∧
    (magValue p n < ((c.params.mantissaValues : ℚ) - 1 / 2) * 2 ^ (-(c.params.expBias : ℤ) - c.params.manBits) →
      (selectExponent c.params p n).e = 0) ∧
    (c = .ur9e2 → (selectExponent c.params p n).e ≤ 2)

/-- For every codec, precision and magnitude at most K: e1 exceeds max_valid_biased_exp exactly when the codec is
UR14E3 and maxmag >= 16383.5/1024. R71 writes the bound strictly; with R70's tie it is not strict (log entry 10).
(40_numeric_engine.md R70, R71, 41_encode.md R90.) -/
def Obligations.SaturationBindsOnlyUR14E3 : Prop :=
  ∀ (c : Codec) (p : Precision) (n : Nat), n ≤ c.clampUnits p →
    ((c.params.maxValidBiasedExp : ℤ) < carriedExp c.params p n ↔ c = .ur14e3 ∧ (16383.5 / 1024 : ℚ) ≤ magValue p n)

/-- For every integer sig >= 0 and all integers k and s, the shift form of RHU on sig * 2^k / 2^s equals floor(sig *
2^k / 2^s + 1/2). (R74.) -/
def Obligations.RhuIsFloorOfHalfUp : Prop :=
  ∀ (sig : Nat) (k s : ℤ), (rhu sig k s : ℤ) = ⌊(sig : ℚ) * 2 ^ k / 2 ^ s + 1 / 2⌋

/-- For every parameter pair, precision, magnitude and denominator 2^d: Quantize is min(floor(c / 2^d + 1/2),
max_mantissa) on exact rationals. For a valid pair, where e1 is within range, RHU(c / denom) of a channel at most
maxmag is already at most max_mantissa. (R75.) -/
def Obligations.QuantizeExact : Prop :=
  (∀ (f : FormatParams) (p : Precision) (c : Nat) (d : ℤ),
    (quantize f p c d : ℤ) = quantizeExact f (magValue p c) (2 ^ d)) ∧
  ∀ (f : FormatParams) (p : Precision) (c n : Nat), f.Valid → c ≤ n → carriedExp f p n ≤ f.maxValidBiasedExp →
    rhu c p.unitExp (selectExponent f p n).denomExp ≤ f.maxMantissa

/-- For a valid parameter pair: every mantissa is at most max_mantissa; after a carry that stays in range the largest
channel's mantissa is mantissa_values / 2. In UR14E3, where the saturation binds, e is 7 and quantizing a channel
equals quantizing it clamped to 15.9990234375 without a limit, and a channel above 15.99951171875 gives 16383 at
exponent 7. R76's second bullet is read for carries that do not saturate (log entry 10). (40_numeric_engine.md R76.)
-/
def Obligations.QuantizerProperties : Prop :=
  (∀ (f : FormatParams) (p : Precision) (c : Nat) (d : ℤ), quantize f p c d ≤ f.maxMantissa) ∧
  (∀ (f : FormatParams) (p : Precision) (n : Nat), f.Valid → startMantissa f p n = f.mantissaValues →
    carriedExp f p n ≤ f.maxValidBiasedExp →
    quantize f p n (selectExponent f p n).denomExp = f.mantissaValues / 2) ∧
  ∀ (p : Precision) (c n : Nat), c ≤ n → n ≤ Codec.ur14e3.clampUnits p →
    let f := Codec.ur14e3.params
    let grid := 16383 <<< (p.unitsPerOneLog - 10)
    (f.maxValidBiasedExp : ℤ) < carriedExp f p n →
      (selectExponent f p n).e = 7 ∧ (selectExponent f p (min n grid)).e = 7 ∧
      quantize f p c (selectExponent f p n).denomExp =
        rhu (min c grid) p.unitExp (selectExponent f p (min n grid)).denomExp ∧
      ((16383.5 / 1024 : ℚ) < magValue p c → quantize f p c (selectExponent f p n).denomExp = 16383)

/-- For every codec, precision and three patterns, EncodeFields gives: as exponent, the selector of R67 to R72 on the
largest of the three rational magnitudes of Condition; as each mantissa, Quantize on rationals at that exponent's
denominator; as each sign, Condition's. So no wrap, shift or truncation of the integer datapath changes any result.
(40_numeric_engine.md R64, R65, R72, R75, R77, R81, 41_encode.md R85.) -/
def Obligations.EncodeFieldsExact : Prop :=
  ∀ (c : Codec) (p : Precision) (bx bY bz : Nat),
    let f := encodeFields c p bx bY bz
    let x := conditionExact c p bx
    let y := conditionExact c p bY
    let z := conditionExact c p bz
    let e := sharedExpExact c.params (max x.2 (max y.2 z.2))
    (f.e : ℤ) = e ∧
    (f.mx : ℤ) = quantizeExact c.params x.2 (denomExact c.params e) ∧
    (f.my : ℤ) = quantizeExact c.params y.2 (denomExact c.params e) ∧
    (f.mz : ℤ) = quantizeExact c.params z.2 (denomExact c.params e) ∧
    f.sx = x.1 ∧ f.sy = y.1 ∧ f.sz = z.1

/-- Every codec's layout descriptor is well formed: slots inside their words, pairwise disjoint, filling the format's
bits, slices contiguous; the exponent has E bits, each mantissa M bits, and each sign one bit in a signed codec and
none in the unsigned one; the totals are 32, 32, 32, 48, 48 and 64 bits. (R51.) -/
def Obligations.LayoutsFillFormats : Prop :=
  ∀ c : Codec, c.layout.WellFormed ∧
    c.layout.fieldWidth .e = c.params.expBits ∧
    (∀ n ∈ [FieldName.mx, .my, .mz], c.layout.fieldWidth n = c.params.manBits) ∧
    (∀ n ∈ [FieldName.sx, .sy, .sz], c.layout.fieldWidth n = if c.signed then 1 else 0) ∧
    c.layout.bitsA = 32 ∧
    c.layout.bitsB = (match c with | .u9e5 => 0 | .s8e5 => 0 | .ur9e2 => 0 | .s13e6 => 16 | .ur14e3 => 16 | .s18e7 => 32) ∧
    c.layout.bitsA + c.layout.bitsB =
      c.params.expBits + 3 * c.params.manBits + (if c.signed then 3 else 0)

/-- For every codec and every in-range field tuple, Unpack of Pack is the tuple, with every exponent, mantissa and
sign at every value; and the packed words fit the format's bits. (42_decode.md R93, 30_encoding.md R44 to R50.) -/
def Obligations.UnpackPack : Prop :=
  ∀ (c : Codec) (f : Fields), f.InRange c →
    let w := pack c.layout f
    unpack c.layout w.1 w.2 = f ∧ w.1 < 2 ^ c.layout.bitsA ∧ w.2 < 2 ^ c.layout.bitsB

/-- For every codec and all words within the format's bits, the unpacked fields are in range and packing them gives
the same words: no bit of a format is unused and no word is rejected. (30_encoding.md R51, R52.) -/
def Obligations.PackUnpack : Prop :=
  ∀ (c : Codec) (a b : Nat), a < 2 ^ c.layout.bitsA → b < 2 ^ c.layout.bitsB →
    (unpack c.layout a b).InRange c ∧ pack c.layout (unpack c.layout a b) = (a, b)

/-- For every precision, sign, 0 < m < 2^24 and t whose biased exponent t + L - 1 + EB is normal: the pattern fits the
precision, is normal with that exponent, and its value is exactly (-1)^s * m * 2^t. For m = 0 it is the zero of sign
s. (40_numeric_engine.md R79.) -/
def Obligations.ToIeeeExact : Prop :=
  (∀ (p : Precision) (s : Bool) (m : Nat) (t : ℤ), 0 < m → m < 2 ^ 24 → 0 < ieeeExponent p m t →
    ieeeExponent p m t < p.expAllOnes →
    let b := toIeee p s m t
    b < 2 ^ p.width ∧ (expOf p b : ℤ) = ieeeExponent p m t ∧ signOf p b = s ∧
      ieeeValue p b = applySign s ((m : ℚ) * 2 ^ t)) ∧
  ∀ (p : Precision) (s : Bool) (t : ℤ),
    let b := toIeee p s 0 t
    b < 2 ^ p.width ∧ IsZero p b ∧ signOf p b = s

/-- For every decode operation and state, exec answers a next state in which each channel port holds a pattern of the
operation's precision whose value is exactly (-1)^s * m * 2^(e - exp_bias - M) for the fields of the word operands: a
zero of sign s where m = 0, otherwise a normal value with biased exponent 46 to 190 (binary32) or 942 to 1086
(binary64). Every exponent and mantissa code decodes. (40_numeric_engine.md R78, 40_numeric_engine.md R79.) -/
def Obligations.DecodedChannelsExact : Prop :=
  ∀ (i : Instr), i.direction = .decode → ∀ s : State, ∃ t, exec i s = .next t ∧
    ∀ l : Lane,
      let f := decodedFields i.codec s.ins
      let b := (t.outs.port l).toNat
      b < 2 ^ i.precision.width ∧ signOf i.precision b = f.sgn l ∧
      (i.codec.signed = false → f.sgn l = false) ∧
      ieeeValue i.precision b = decodedValue i.codec.params f.e (f.sgn l) (f.man l) ∧
      (f.man l = 0 → IsZero i.precision b) ∧
      (f.man l ≠ 0 → match i.precision with
        | .binary32 => 46 ≤ expOf .binary32 b ∧ expOf .binary32 b ≤ 190
        | .binary64 => 942 ≤ expOf .binary64 b ∧ expOf .binary64 b ≤ 1086)

/-- For the encode and decode of one codec and precision, every state and every finite lane (not negative in the
unsigned codec): after the encode, the host feeds the words to the decode, both complete, and the decoded value
differs from the operand v by at most 2^(e - exp_bias - M - 1) if |v| <= min(K, GMAX), and by at most |v| - min(K,
GMAX) plus that half step otherwise, e being the exponent the encode chose. The second bound is R83's outside the
clamp range, which the model reads for non-negative values in the unsigned codec (log entry 16, DEDUCED); negative
lanes of U9E5 encode as 0 (TopMagnitudesSaturate). (40_numeric_engine.md R83, 40_numeric_engine.md R62, R63, R71.) -/
def Obligations.RoundTripAccuracy : Prop :=
  ∀ enc dec : Instr, Paired enc dec → ∀ s : State, ∃ t u,
    exec enc s = .next t ∧ exec dec t.feedWords = .next u ∧
    ∀ l : Lane,
      let c := enc.codec
      let p := enc.precision
      let b := laneBits p s.ins l
      let v := ieeeValue p b
      let error := |ieeeValue p (u.outs.port l).toNat - v|
      let half : ℚ := 2 ^ (((encodedFields c p s.ins).e : ℤ) - c.params.expBias - c.params.manBits - 1)
      IsFinite p b → (c.signed = false → 0 ≤ v) →
        (|v| ≤ gridMax c → error ≤ half) ∧ (gridMax c < |v| → error ≤ |v| - gridMax c + half)

/-- For the encode and decode of one codec and precision and every state: decoding the encode's words gives on each
lane a finite pattern whose value is that of the encoded fields, of magnitude at most min(K, GMAX); it is -0.0 exactly
when the codec is signed, the operand is not a NaN, its sign bit is set and its mantissa field is 0.
(40_numeric_engine.md R84 (first bullet), 40_numeric_engine.md R61, R77.) -/
def Obligations.RoundTripValues : Prop :=
  ∀ enc dec : Instr, Paired enc dec → ∀ s : State, ∃ t u,
    exec enc s = .next t ∧ exec dec t.feedWords = .next u ∧
    ∀ l : Lane,
      let c := enc.codec
      let p := enc.precision
      let b := laneBits p s.ins l
      let f := encodedFields c p s.ins
      let r := (u.outs.port l).toNat
      IsFinite p r ∧ ieeeValue p r = decodedValue c.params f.e (f.sgn l) (f.man l) ∧ |ieeeValue p r| ≤ gridMax c ∧
      (IsZero p r ∧ signOf p r = true ↔ c.signed = true ∧ ¬ IsNaN p b ∧ signOf p b = true ∧ f.man l = 0)

/-- For the encode and decode of one codec and precision and every state: decoding a word, encoding the channels and
decoding the result gives the same outputs, except in UR9E2 for words with a magnitude above 1.0; in UR9E2 each lane
comes back with its magnitude clamped to 1.0. (40_numeric_engine.md R84 (second bullet).) -/
def Obligations.RedecodeIsIdentity : Prop :=
  ∀ enc dec : Instr, Paired enc dec → ∀ s : State, ∃ t u v,
    exec dec s = .next t ∧ exec enc t.feedChannels = .next u ∧ exec dec u.feedWords = .next v ∧
    let p := dec.precision
    ((dec.codec = .ur9e2 → ∀ l : Lane, |ieeeValue p (t.outs.port l).toNat| ≤ 1) → v.outs = t.outs) ∧
    (dec.codec = .ur9e2 → ∀ l : Lane,
      let a := (t.outs.port l).toNat
      ieeeValue p (v.outs.port l).toNat = applySign (signOf p a) (min |ieeeValue p a| 1))

/-- For two states whose lanes hold, one in binary32 and one in binary64, the same datum (both NaN, or the same class,
sign and exact magnitude), ENC.S18E7.F32 on the first and ENC.S18E7.F64 on the second complete with the same outputs.
(40_numeric_engine.md R84 (third bullet), 41_encode.md R92.) -/
def Obligations.PrecisionsAgreeOnEncode : Prop :=
  ∀ s s' : State, (∀ l : Lane, SameDatum (laneBits .binary32 s.ins l) (laneBits .binary64 s'.ins l)) →
    ∃ t t', exec .encS18E7F32 s = .next t ∧ exec .encS18E7F64 s' = .next t' ∧ t.outs = t'.outs

/-- For every state, DEC.S18E7.F32 and DEC.S18E7.F64 complete, and on each lane the binary32 and the binary64 pattern
have the same sign and exactly the same value. (40_numeric_engine.md R84 (third bullet), 42_decode.md R100.) -/
def Obligations.PrecisionsAgreeOnDecode : Prop :=
  ∀ s : State, ∃ t t', exec .decS18E7F32 s = .next t ∧ exec .decS18E7F64 s = .next t' ∧
    ∀ l : Lane, signOf .binary32 (t.outs.port l).toNat = signOf .binary64 (t'.outs.port l).toNat ∧
      ieeeValue .binary32 (t.outs.port l).toNat = ieeeValue .binary64 (t'.outs.port l).toNat

/-- For every codec and precision and two input records that hold the same pattern on a lane: the lane's encoded sign
is the same, and where the shared exponents are equal its mantissa is the same too; and records with the same largest
magnitude have the same exponent. (40_numeric_engine.md R80.) -/
def Obligations.LanesShareOnlyExponent : Prop :=
  ∀ (c : Codec) (p : Precision) (i j : Inputs) (l : Lane),
    let f := encodedFields c p i
    let g := encodedFields c p j
    (maxMag c p i = maxMag c p j → f.e = g.e) ∧
    (laneBits p i l = laneBits p j l → f.sgn l = g.sgn l ∧ (f.e = g.e → f.man l = g.man l))

/-- For every operation and two states: an encode gives the same outputs when the channel ports agree on bits [31:0]
(binary32) or on all 64 bits (binary64), whatever the word ports and other bits hold; a decode gives the same outputs
when IN_A agrees and IN_B agrees on the format's bits (none, [15:0] or [31:0]), whatever the channel ports hold. (R17,
R18.) -/
def Obligations.IgnoredInputsReachNoOutput : Prop :=
  ∀ (i : Instr) (s s' : State), ∃ t t', exec i s = .next t ∧ exec i s' = .next t' ∧
    (i.direction = .encode →
      (∀ l : Lane, (s.ins.port l).toNat % 2 ^ i.precision.width = (s'.ins.port l).toNat % 2 ^ i.precision.width) →
      t.outs = t'.outs) ∧
    (i.direction = .decode → s.ins.inA = s'.ins.inA →
      s.ins.inB.toNat % 2 ^ i.codec.layout.bitsB = s'.ins.inB.toNat % 2 ^ i.codec.layout.bitsB → t.outs = t'.outs)

/-- For every operation and state, exec answers a next state in which: an encode leaves the channel outputs 0 and
OUT_B 0 above its format's word B bits; a decode leaves the word outputs 0 and, for binary32 channels, bits [63:32] of
the channel outputs 0; ERR is 0. (10_state.md R19, R20, R21.) -/
def Obligations.UnusedOutputsAreZero : Prop :=
  ∀ (i : Instr) (s : State), ∃ t, exec i s = .next t ∧ t.outs.err = 0 ∧
    (i.direction = .encode → t.outs.NoChannels ∧ t.outs.outB.toNat < 2 ^ i.codec.layout.bitsB) ∧
    (i.direction = .decode → t.outs.NoWords ∧ ∀ l : Lane, (t.outs.port l).toNat < 2 ^ i.precision.width)

/-- For every codec, precision, input record and lane: a lane that is an infinity or finite with magnitude at least
min(K, GMAX) encodes to fields whose decoded value is min(K, GMAX) with the lane's sign; in the unsigned codec a set
sign bit gives mantissa 0. So infinities saturate to the largest value a round trip gives. (40_numeric_engine.md R62,
R63, R71, R76, 95_test_vectors.md W4.) -/
def Obligations.TopMagnitudesSaturate : Prop :=
  ∀ (c : Codec) (p : Precision) (i : Inputs) (l : Lane),
    let b := laneBits p i l
    let f := encodedFields c p i
    (c.signed = true ∨ signOf p b = false → MagAtLeast p b (gridMax c) →
      decodedValue c.params f.e (f.sgn l) (f.man l) = applySign (signOf p b) (gridMax c)) ∧
    (c.signed = false → signOf p b = true → f.man l = 0 ∧ f.sgn l = false)

/-- For every codec, precision, input record and lane: a NaN gives mantissa 0 and sign 0; a subnormal gives mantissa 0
and, in a signed codec, keeps its sign. (40_numeric_engine.md R61, R62, R77, 41_encode.md R89, R91, R92 (corner
cases).) -/
def Obligations.TinyAndNaNChannelsEncodeToZero : Prop :=
  ∀ (c : Codec) (p : Precision) (i : Inputs) (l : Lane),
    let b := laneBits p i l
    let f := encodedFields c p i
    (IsNaN p b → f.man l = 0 ∧ f.sgn l = false) ∧
    (IsSubnormal p b → f.man l = 0 ∧ (c.signed = true → f.sgn l = signOf p b))

/-- The derived constants of every codec are those of R58's table (epsilon and GMAX as exact rationals), K is the
pattern the table gives in binary32 and is exactly representable in binary64, and K equals GMAX exactly in the four
codecs without normalisation. (40_numeric_engine.md R58.) -/
def Obligations.CodecConstants : Prop :=
  (∀ c : Codec, let f := c.params
    (c.signed, f.maxValidBiasedExp, f.expBias, f.mantissaValues, f.maxMantissa, f.maxExp) = (match c with
      | .u9e5 => (false, 31, 15, 512, 511, 16)
      | .s8e5 => (true, 31, 15, 256, 255, 16)
      | .ur9e2 => (true, 3, 1, 512, 511, 2)
      | .s13e6 => (true, 63, 31, 8192, 8191, 32)
      | .ur14e3 => (true, 7, 3, 16384, 16383, 4)
      | .s18e7 => (true, 127, 63, 262144, 262143, 64)) ∧
    (f.epsilon, f.gmax) = (match c with
      | .u9e5 => (1 / 2 ^ 24, 65408)
      | .s8e5 => (1 / 2 ^ 23, 65280)
      | .ur9e2 => (1 / 2 ^ 10, 511 / 128)
      | .s13e6 => (1 / 2 ^ 44, 8191 * 2 ^ 19)
      | .ur14e3 => (1 / 2 ^ 17, 16383 / 1024)
      | .s18e7 => (1 / 2 ^ 81, 262143 * 2 ^ 46)) ∧
    ((c.clampConstant : ℚ) = f.gmax ↔ c ≠ .ur9e2 ∧ c ≠ .ur14e3) ∧
    classify .binary32 (match c with
      | .u9e5 => 0x477F8000 | .s8e5 => 0x477F0000 | .ur9e2 => 0x3F800000
      | .s13e6 => 0x4F7FF800 | .ur14e3 => 0x41800000 | .s18e7 => 0x5F7FFFC0) =
        { cls := .fin, sign := false, mag := c.clampUnits .binary32 } ∧
    ∃ b < 2 ^ 64, classify .binary64 b = { cls := .fin, sign := false, mag := c.clampUnits .binary64 })

/-- For every E and M: building the parameters succeeds exactly when 1 <= E <= 7, 1 <= M <= 24 and E * M <= 133, and
is refused by name otherwise; the six codecs' pairs are valid. (R56.) -/
def Obligations.InvalidParametersRefused : Prop :=
  (∀ E M : Nat, 1 ≤ E → E ≤ 7 → 1 ≤ M → M ≤ 24 → E * M ≤ 133 →
    FormatParams.make E M = .ok { expBits := E, manBits := M }) ∧
  (∀ E M : Nat, ¬ (1 ≤ E ∧ E ≤ 7 ∧ 1 ≤ M ∧ M ≤ 24 ∧ E * M ≤ 133) →
    FormatParams.make E M = .error (.invalidFormat E M)) ∧
  ∀ c : Codec, FormatParams.make c.params.expBits c.params.manBits = .ok c.params

/-- For every valid parameter pair: exp_bias = 2^(E-1) - 1, max_exp = 2^(E-1), epsilon = 2^(-M - exp_bias) and is the
decoded value of mantissa 1 at exponent 0, GMAX = max_mantissa * 2^(max_exp - M), every decoded magnitude is at most
GMAX, and max_mantissa at max_valid_biased_exp gives it. (R57.) -/
def Obligations.DerivedConstantsClosedForms : Prop :=
  ∀ f : FormatParams, f.Valid →
    f.maxValidBiasedExp = 2 ^ f.expBits - 1 ∧ f.expBias = f.maxValidBiasedExp / 2 ∧
    f.expBias = 2 ^ (f.expBits - 1) - 1 ∧ f.maxExp = f.maxValidBiasedExp - f.expBias ∧ f.maxExp = 2 ^ (f.expBits - 1) ∧
    f.mantissaValues = 2 ^ f.manBits ∧ f.maxMantissa = 2 ^ f.manBits - 1 ∧
    f.epsilon = 2 ^ (-(f.manBits : ℤ) - f.expBias) ∧ decodedValue f 0 false 1 = f.epsilon ∧
    f.gmax = (f.maxMantissa : ℚ) * 2 ^ ((f.maxExp : ℤ) - f.manBits) ∧
    decodedValue f f.maxValidBiasedExp false f.maxMantissa = f.gmax ∧
    ∀ e m : Nat, e ≤ f.maxValidBiasedExp → m ≤ f.maxMantissa → decodedValue f e false m ≤ f.gmax

/-- NORM is 128/511 for UR9E2, 16384/16383 for UR14E3 and 1 for the other four codecs. (40_numeric_engine.md R59.) -/
def Obligations.NormalisationMultipliers : Prop :=
  ∀ c : Codec, c.normMultiplier = (match c with
    | .u9e5 => 1 | .s8e5 => 1 | .ur9e2 => 128 / 511 | .s13e6 => 1 | .ur14e3 => 16384 / 16383 | .s18e7 => 1)

/-- Whatever LATENCY is: a host that drives inputs, waits at least LATENCY and samples has the settled step of those
inputs, from any state before. What an earlier sample gives is left free (log entry 5). (70_reset_and_hazards.md R118,
R119.) -/
def Obligations.SampleAfterLatencyIsStep : Prop :=
  ∀ (s s' : State) (i : Inputs) (elapsed n : Nat), Config.latency ≤ elapsed →
    sample s i elapsed n = step (s'.drive i)
end

