-- ==== Sys2Proof/Laws/Engine.lean ====
section
/-! SUPPORT. The arithmetic of the integer datapath: bit fields as quotients and remainders, the two branches of RHU,
and the order of magnitudes. -/

namespace Sys2Proof.Machine

/-- Bit-field extraction is a quotient and a remainder (R10). -/
theorem bf_eq_div_mod (v off n : Nat) : bf v off n = v / 2 ^ off % 2 ^ n := by
  simp [bf, Nat.shiftRight_eq_div_pow, Nat.shiftLeft_eq, Nat.and_two_pow_sub_one_eq_mod]

theorem bf_lt (v off n : Nat) : bf v off n < 2 ^ n := by
  rw [bf_eq_div_mod]; exact Nat.mod_lt _ (Nat.two_pow_pos n)

/-- A field that fits is extracted whole. -/
theorem bf_zero_of_lt {v n : Nat} (h : v < 2 ^ n) : bf v 0 n = v := by
  rw [bf_eq_div_mod, Nat.pow_zero, Nat.div_one, Nat.mod_eq_of_lt h]

/-- RHU with a positive shift `r` adds half a unit and truncates (R74). -/
theorem rhu_of_pos (sig : Nat) (k : Int) (r : Nat) (h : 0 < r) :
    rhu sig k (k + r) = (sig + 2 ^ (r - 1)) / 2 ^ r := by
  simp [rhu, Nat.shiftRight_eq_div_pow, Nat.shiftLeft_eq, Nat.pos_iff_ne_zero.mp h]

/-- RHU with a shift of at most 0 is exact (R74). -/
theorem rhu_of_nonpos (sig : Nat) (s : Int) (r : Nat) : rhu sig (s + r) s = sig * 2 ^ r := by
  have hr : s - (s + (r : Int)) ≤ 0 := by omega
  have ht : (-(s - (s + (r : Int)))).toNat = r := by omega
  simp only [rhu, hr, if_true, ht, Nat.shiftLeft_eq]

/-- RHU is monotone in its significand. -/
theorem rhu_mono {a b : Nat} (h : a ≤ b) (k s : Int) : rhu a k s ≤ rhu b k s := by
  by_cases hr : s - k ≤ 0 <;> simp only [rhu, hr, if_true, if_false]
  · simp only [Nat.shiftLeft_eq]; exact Nat.mul_le_mul_right _ h
  · simpa [Nat.shiftRight_eq_div_pow] using Nat.div_le_div_right (Nat.add_le_add_right h _)

@[simp] theorem magValue_zero (p : Precision) : magValue p 0 = 0 := by simp [magValue]

theorem magValue_nonneg (p : Precision) (n : Nat) : 0 ≤ magValue p n := by unfold magValue; positivity

/-- Magnitudes are ordered as their unit counts. -/
theorem magValue_le_iff (p : Precision) (a b : Nat) : magValue p a ≤ magValue p b ↔ a ≤ b := by
  unfold magValue
  have h : (0 : ℚ) < 2 ^ p.unitExp := by positivity
  rw [mul_le_mul_iff_left₀ h, Nat.cast_le]

theorem magValue_lt_iff (p : Precision) (a b : Nat) : magValue p a < magValue p b ↔ a < b := by
  rw [← not_le, ← not_le, magValue_le_iff]

theorem magValue_max (p : Precision) (a b : Nat) : magValue p (max a b) = max (magValue p a) (magValue p b) := by
  have hm : Monotone (magValue p) := fun _ _ h => (magValue_le_iff p _ _).mpr h
  exact hm.map_max

theorem magValue_min (p : Precision) (a b : Nat) : magValue p (min a b) = min (magValue p a) (magValue p b) := by
  have hm : Monotone (magValue p) := fun _ _ h => (magValue_le_iff p _ _).mpr h
  exact hm.map_min

/-- K in units is K. -/
theorem magValue_clampUnits (c : Codec) (p : Precision) : magValue p (c.clampUnits p) = c.clampConstant := by
  have h : (2 : ℚ) ^ p.unitsPerOneLog * 2 ^ p.unitExp = 1 := by
    cases p <;> simp only [Precision.unitsPerOneLog, Precision.unitExp, Precision.expBias, Precision.fracBits] <;>
      rw [← zpow_natCast, ← zpow_add₀ two_ne_zero] <;> norm_num
  rw [magValue, Codec.clampUnits, Nat.shiftLeft_eq, Nat.cast_mul, Nat.cast_pow, Nat.cast_ofNat, mul_assoc, h, mul_one]

/-- A zero mantissa is written as the zero of its sign (R79). -/
theorem toIeee_zero (p : Precision) (s : Bool) (t : Int) : toIeee p s 0 t = s.toNat <<< (p.width - 1) := by
  simp [toIeee]

end Sys2Proof.Machine
end

