-- ==== Sys2Proof/Laws/State.lean ====
section
/-! SUPPORT. One lemma for each field under each update of State, and the lane readings of the records. -/

namespace Sys2Proof.Machine

@[simp] theorem State.drive_ins (s : State) (i : Inputs) : (s.drive i).ins = i := rfl
@[simp] theorem State.drive_outs (s : State) (i : Inputs) : (s.drive i).outs = s.outs := rfl
@[simp] theorem State.settle_ins (s : State) (o : Outputs) : (s.settle o).ins = s.ins := rfl
@[simp] theorem State.settle_outs (s : State) (o : Outputs) : (s.settle o).outs = o := rfl
@[simp] theorem State.drive_drive (s : State) (i j : Inputs) : (s.drive i).drive j = s.drive j := rfl
@[simp] theorem State.settle_settle (s : State) (o r : Outputs) : (s.settle o).settle r = s.settle r := rfl

@[simp] theorem State.withFetchWord_outs (s : State) (nbits w : Nat) : (s.withFetchWord nbits w).outs = s.outs := rfl
@[simp] theorem State.withFetchWord_cmd (s : State) (nbits w : Nat) :
    (s.withFetchWord nbits w).ins.cmd = BitVec.ofNat 8 w := rfl

@[simp] theorem State.feedWords_cmd (s : State) : s.feedWords.ins.cmd = s.ins.cmd := rfl
@[simp] theorem State.feedWords_inA (s : State) : s.feedWords.ins.inA = s.outs.outA := rfl
@[simp] theorem State.feedWords_inB (s : State) : s.feedWords.ins.inB = s.outs.outB := rfl
@[simp] theorem State.feedWords_port (s : State) (l : Lane) : s.feedWords.ins.port l = s.ins.port l := by
  cases l <;> rfl
@[simp] theorem State.feedChannels_port (s : State) (l : Lane) : s.feedChannels.ins.port l = s.outs.port l := by
  cases l <;> rfl

@[simp] theorem wordOutputs_outA (a b : Nat) : (wordOutputs a b).outA = BitVec.ofNat 32 a := rfl
@[simp] theorem wordOutputs_outB (a b : Nat) : (wordOutputs a b).outB = BitVec.ofNat 32 b := rfl
@[simp] theorem wordOutputs_port (a b : Nat) (l : Lane) : (wordOutputs a b).port l = 0 := by cases l <;> rfl
@[simp] theorem wordOutputs_err (a b : Nat) : (wordOutputs a b).err = 0 := rfl
@[simp] theorem channelOutputs_outA (x y z : Nat) : (channelOutputs x y z).outA = 0 := rfl
@[simp] theorem channelOutputs_outB (x y z : Nat) : (channelOutputs x y z).outB = 0 := rfl
@[simp] theorem channelOutputs_err (x y z : Nat) : (channelOutputs x y z).err = 0 := rfl
@[simp] theorem illegalOutputs_err : illegalOutputs.err = 1 := rfl

/-- The channel port of a lane after a decode: the pattern of that lane's own fields. -/
theorem decodeOutputs_port (c : Codec) (p : Precision) (i : Inputs) (l : Lane) :
    (decodeOutputs c p i).port l =
      BitVec.ofNat 64 (decodedChannel c p (decodedFields c i) ((decodedFields c i).sgn l) ((decodedFields c i).man l)) := by
  cases l <;> simp only [decodeOutputs, channelOutputs, Outputs.port, Fields.sgn, Fields.man]

/-- The sign of an encoded lane is the conditioned sign of its pattern. -/
theorem encodedFields_sgn (c : Codec) (p : Precision) (i : Inputs) (l : Lane) :
    (encodedFields c p i).sgn l = (condition c p (laneBits p i l)).sign := by
  cases l <;> simp only [encodedFields, encodeFields, Fields.sgn, laneBits, Inputs.port]

/-- The exponent of an encode is the selector's on the largest lane magnitude. -/
theorem encodedFields_e (c : Codec) (p : Precision) (i : Inputs) :
    (encodedFields c p i).e = (selectExponent c.params p (maxMag c p i)).e := by
  simp only [encodedFields, encodeFields, laneMag, maxMag, laneBits, Inputs.port]

/-- The mantissa of an encoded lane. -/
theorem encodedFields_man (c : Codec) (p : Precision) (i : Inputs) (l : Lane) :
    (encodedFields c p i).man l =
      quantize c.params p (laneMag c p i l) (selectExponent c.params p (maxMag c p i)).denomExp := by
  cases l <;> simp only [encodedFields, encodeFields, Fields.man, laneMag, maxMag, laneBits, Inputs.port]

end Sys2Proof.Machine
end

