-- ==== Sys2Proof/Machine/Program.lean ====
section
/-! DEFINITION. Host programs: finite lists of transactions in the syntax of 30_encoding.md R55, run in order by the host
(70_reset_and_hazards.md R121). The block has no part in this: it sees one transaction at a time. -/

namespace Sys2Proof

/-- The mnemonic of each operation (R41). -/
def Instr.mnemonic : Instr → String
  | .encU9E5 => "ENC.U9E5"
  | .encS8E5 => "ENC.S8E5"
  | .encUR9E2 => "ENC.UR9E2"
  | .encS13E6 => "ENC.S13E6"
  | .encUR14E3 => "ENC.UR14E3"
  | .encS18E7F32 => "ENC.S18E7.F32"
  | .encS18E7F64 => "ENC.S18E7.F64"
  | .decU9E5 => "DEC.U9E5"
  | .decS8E5 => "DEC.S8E5"
  | .decUR9E2 => "DEC.UR9E2"
  | .decS13E6 => "DEC.S13E6"
  | .decUR14E3 => "DEC.UR14E3"
  | .decS18E7F32 => "DEC.S18E7.F32"
  | .decS18E7F64 => "DEC.S18E7.F64"

/-- The encode operations beside the decode operations of the same suffix, with the mnemonic of the round-trip
pseudo-instruction RT of both (R55). -/
def roundTrips : List (String × Instr × Instr) :=
  [("RT.U9E5", .encU9E5, .decU9E5), ("RT.S8E5", .encS8E5, .decS8E5), ("RT.UR9E2", .encUR9E2, .decUR9E2),
   ("RT.S13E6", .encS13E6, .decS13E6), ("RT.UR14E3", .encUR14E3, .decUR14E3),
   ("RT.S18E7.F32", .encS18E7F32, .decS18E7F32), ("RT.S18E7.F64", .encS18E7F64, .decS18E7F64)]

namespace Machine

/-- A label, as its characters. -/
abbrev Label := List Char

/-- The results of a transaction that have names: `label.A` and `label.B` of an encode, `label.X` to `label.Z` of a
decode (R55). -/
inductive ResultName where
  | A | B | X | Y | Z
deriving DecidableEq, Repr

/-- An operand of a line (R55). -/
inductive Operand where
  /-- A hexadecimal pattern of so many digits. -/
  | hex (digits value : Nat)
  /-- A decimal literal, `digits / 10^scale` with a sign; `-0.0` is one. -/
  | decimal (negative : Bool) (digits scale : Nat)
  /-- `+inf` or `-inf`. -/
  | inf (negative : Bool)
  /-- `nan`, the quiet NaN. -/
  | nan
  /-- A result of an earlier line. -/
  | result (label : Label) (name : ResultName)
deriving DecidableEq, Repr

/-- One line: one transaction (R55). -/
structure Line where
  label    : Option Label
  op       : Instr
  operands : List Operand
deriving DecidableEq, Repr

/-- Why a text is no program of R55. -/
inductive ProgramError where
  | unknownMnemonic
  | badOperand
  | wrongOperandCount
  | wrongHexDigits
  | notExactlyRepresentable
  | wordTooWide
  | undefinedName
deriving DecidableEq, Repr

/-- A sign bit at the top of a pattern. -/
def signPattern (p : Precision) (negative : Bool) : Nat := negative.toNat <<< (p.width - 1)

/-- The pattern of a magnitude of `n` units of `2^unitExp`, where the precision holds it exactly (R12). -/
def patternOfUnits (p : Precision) (n : Nat) : Option Nat :=
  if n < 2 ^ p.fracBits then some n
  else
    let shift := Nat.log2 n - p.fracBits
    if n % (1 <<< shift) ≠ 0 ∨ p.expAllOnes ≤ shift + 1 then none
    else some (((shift + 1) <<< p.fracBits) ||| (n >>> shift - 2 ^ p.fracBits))

/-- The pattern of a decimal literal, "a decimal literal whose value is exactly representable at the operand precision"
(R55). -/
def patternOfDecimal (p : Precision) (negative : Bool) (digits scale : Nat) : Except ProgramError Nat :=
  let n := digits <<< p.unitsPerOneLog
  match if n % 10 ^ scale = 0 then patternOfUnits p (n / 10 ^ scale) else none with
  | some b => .ok (signPattern p negative ||| b)
  | none => .error .notExactlyRepresentable

/-- The results of the lines run so far, latest first. -/
abbrev Results := List (Label × Direction × Outputs)

/-- The value a name stands for (R55). An encode names its words and a decode its channels. -/
def lookupResult (rs : Results) (label : Label) (name : ResultName) : Except ProgramError Nat :=
  match rs.find? (fun r => r.1 == label) with
  | none => .error .undefinedName
  | some (_, dir, o) =>
    match dir, name with
    | .encode, .A => .ok o.outA.toNat
    | .encode, .B => .ok o.outB.toNat
    | .decode, .X => .ok o.outX.toNat
    | .decode, .Y => .ok o.outY.toNat
    | .decode, .Z => .ok o.outZ.toNat
    | _, _ => .error .undefinedName

/-- The pattern a channel operand puts on its port (R55). A result name as a channel operand is the 64-bit value of its
port, a word zero-extended: DESIGN CHOICE (log entry 15). -/
def channelOperand (p : Precision) (rs : Results) : Operand → Except ProgramError Nat
  | .hex digits value => if digits = p.width / 4 then .ok value else .error .wrongHexDigits
  | .decimal negative digits scale => patternOfDecimal p negative digits scale
  | .inf negative => .ok (signPattern p negative ||| (p.expAllOnes <<< p.fracBits))
  | .nan => .ok ((p.expAllOnes <<< p.fracBits) ||| (1 <<< (p.fracBits - 1)))
  | .result label name => lookupResult rs label name

/-- The word a word operand puts on its port (R55). R55 names only `t.A` and `t.B` here. That `t.X`, `t.Y` and `t.Z` are
word operands too, of which `lineInputs` drives bits [31:0], is a DESIGN CHOICE (log entry 15). -/
def wordOperand (rs : Results) : Operand → Except ProgramError Nat
  | .hex _ value => if value < 2 ^ 32 then .ok value else .error .wordTooWide
  | .result label name => lookupResult rs label name
  | .decimal _ _ _ => .error .badOperand
  | .inf _ => .error .badOperand
  | .nan => .error .badOperand

/-- The inputs the host drives for a line; ports the line does not name are 0 (log entry 15). -/
def lineInputs (rs : Results) (l : Line) : Except ProgramError Inputs :=
  match l.op.direction, l.operands with
  | .encode, [x, y, z] => do
    let bx ← channelOperand l.op.precision rs x
    let bY ← channelOperand l.op.precision rs y
    let bz ← channelOperand l.op.precision rs z
    .ok { cmd := encode l.op, inX := BitVec.ofNat 64 bx, inY := BitVec.ofNat 64 bY, inZ := BitVec.ofNat 64 bz,
          inA := 0, inB := 0 }
  | .decode, [a] =>
    if l.op.codec.layout.bitsB = 0 then do
      let wa ← wordOperand rs a
      .ok { cmd := encode l.op, inX := 0, inY := 0, inZ := 0, inA := BitVec.ofNat 32 wa, inB := 0 }
    else .error .wrongOperandCount
  | .decode, [a, b] =>
    if l.op.codec.layout.bitsB = 0 then .error .wrongOperandCount
    else do
      let wa ← wordOperand rs a
      let wb ← wordOperand rs b
      .ok { cmd := encode l.op, inX := 0, inY := 0, inZ := 0, inA := BitVec.ofNat 32 wa, inB := BitVec.ofNat 32 wb }
  | _, _ => .error .wrongOperandCount

/-- The round trip of R55: `t: ENC x, y, z`, then `DEC t.A, t.B`, or `t.A` alone for a 4-byte codec. -/
def expandRoundTrip (t : Label) (enc dec : Instr) (operands : List Operand) : List Line :=
  [{ label := some t, op := enc, operands := operands },
   { label := none, op := dec,
     operands := .result t .A :: if dec.codec.layout.bitsB = 0 then [] else [.result t .B] }]

/-- One transaction of a host that must not issue an illegal command: ERR = 1 is treated as a fault
(93_implementation_defined.md I5). -/
def transactStrict (s : State) (i : Inputs) : Host.Outcome State Fault Refusal :=
  match step (s.drive i) with
  | .next t => if t.outs.err = errIllegal then .fault (.illegalCmd i.cmd) else .next t
  | .fault r => .fault r
  | .refused r => .refused r

/-- Running transactions in order, each on the state the one before it left. The end state of the run is the list of
output records in program order (R121). -/
def runTransactions (s : State) : List Inputs → List Outputs
  | [] => []
  | i :: rest =>
    match step (s.drive i) with
    | .next t => t.outs :: runTransactions t rest
    | .fault _ => []
    | .refused _ => []

/-- Running the lines of a program, the earlier results at hand (R55, R121). -/
def runLines (s : State) (rs : Results) : List Line → Except ProgramError (List Outputs)
  | [] => .ok []
  | l :: rest => do
    let i ← lineInputs rs l
    match step (s.drive i) with
    | .next t =>
      let rs' := match l.label with
        | some name => (name, l.op.direction, t.outs) :: rs
        | none => rs
      let os ← runLines t rs' rest
      .ok (t.outs :: os)
    | .fault _ => .ok []
    | .refused _ => .ok []

/-- The digits of a decimal literal, in the order of their values. -/
def decimalDigits : List Char := "0123456789".toList

/-- The digits of a hexadecimal pattern as R55 writes them (`0x3F800000`), in the order of their values. -/
def hexDigits : List Char := "0123456789ABCDEF".toList

/-- The number a non-empty run of digits writes, most significant first, in the base its alphabet has digits for. -/
def digitsValue (alphabet : List Char) : List Char → Option Nat
  | [] => none
  | first :: rest =>
    (first :: rest).foldlM (fun acc d => (alphabet.idxOf? d).map (fun v => alphabet.length * acc + v)) 0

/-- A result name after its dot. -/
def resultName : List Char → Option ResultName
  | ['A'] => some .A
  | ['B'] => some .B
  | ['X'] => some .X
  | ['Y'] => some .Y
  | ['Z'] => some .Z
  | _ => none

/-- An unsigned decimal literal: digits, or digits, a point and digits. R55 gives two literals, `1.0` and `-0.25`, and no
grammar. That a literal without a point is one, and that `.5`, `1.` and exponent forms such as `1e3` are none, is a DESIGN
CHOICE (log entry 17). -/
def parseUnsigned (negative : Bool) (cs : List Char) : Option Operand :=
  match cs.splitOn '.' with
  | [whole] => (digitsValue decimalDigits whole).map (fun n => .decimal negative n 0)
  | [whole, frac] => do
    let w ← digitsValue decimalDigits whole
    let f ← digitsValue decimalDigits frac
    some (.decimal negative (w * 10 ^ frac.length + f) frac.length)
  | _ => none

/-- One operand's text (R55). DESIGN CHOICE (log entry 17): lower-case hexadecimal digits read as upper-case ones; the
prefix is `0x` and the words `+inf`, `-inf` and `nan` are lower-case; `-` is the only sign of a decimal literal, so `+1.0` is
no operand; a result name is a label, a dot and one upper-case letter, where the label is
not empty, has no dot and does not begin with `-` or `0x`. -/
def parseOperand (cs : List Char) : Except ProgramError Operand :=
  let r : Option Operand :=
    match cs with
    | '0' :: 'x' :: digits => (digitsValue hexDigits (digits.map Char.toUpper)).map (.hex digits.length)
    | ['+', 'i', 'n', 'f'] => some (.inf false)
    | ['-', 'i', 'n', 'f'] => some (.inf true)
    | ['n', 'a', 'n'] => some .nan
    | '-' :: rest => parseUnsigned true rest
    | _ =>
      match parseUnsigned false cs with
      | some o => some o
      | none =>
        match cs.splitOn '.' with
        | [label, name] => if label = [] then none else (resultName name).map (.result label)
        | _ => none
  match r with
  | some o => .ok o
  | none => .error .badOperand

/-- Text without spaces at its ends. The space is the only separating character, a tab is none: DESIGN CHOICE (log entry
17). -/
def trimSpaces (cs : List Char) : List Char := ((cs.dropWhile (· == ' ')).reverse.dropWhile (· == ' ')).reverse

/-- The operands of a line, between commas, with any number of spaces around each, none included: DESIGN CHOICE (log entry
17). -/
def parseOperands (cs : List Char) : Except ProgramError (List Operand) :=
  ((cs.splitOn ',').map trimSpaces).mapM parseOperand

/-- The operation a mnemonic names, in the capitals of R41: DESIGN CHOICE that no other case does (log entry 17). -/
def operationNamed (name : List Char) : Option Instr :=
  ((roundTrips.map (fun r => r.2.1)) ++ (roundTrips.map (fun r => r.2.2))).find? (fun i => i.mnemonic.toList == name)

/-- A line after its label: mnemonic, operands; RT expands to two lines, with the label `t` where the line has none
(R55; log entry 15). -/
def parseOperation (label : Option Label) (cs : List Char) : Except ProgramError (List Line) := do
  let name := cs.takeWhile (· != ' ')
  let operands ← parseOperands (cs.drop name.length)
  match operationNamed name with
  | some i => .ok [{ label := label, op := i, operands := operands }]
  | none =>
    match roundTrips.find? (fun r => r.1.toList == name) with
    | some (_, enc, dec) => .ok (expandRoundTrip (label.getD ['t']) enc dec operands)
    | none => .error .unknownMnemonic

/-- A line of text: `;` starts a comment, a first word that ends in `:` is a label, and an empty line is no transaction
(R55). DESIGN CHOICE (log entry 17): words end at a space, so a label needs a space after its colon (`t1:ENC.U9E5` is no
line), any characters but a space and `;` may stand in it, and a label alone is no line. -/
def parseLine (cs : List Char) : Except ProgramError (List Line) :=
  let body := trimSpaces (cs.takeWhile (· != ';'))
  if body = [] then .ok []
  else
    let first := body.takeWhile (· != ' ')
    if first.getLast? = some ':' then
      parseOperation (some first.dropLast) (trimSpaces (body.drop first.length))
    else parseOperation none body

/-- A program's text, a line at a time (R55). A line ends at a newline character alone: DESIGN CHOICE (log entry 17). -/
def parseProgram (cs : List Char) : Except ProgramError (List Line) := do
  let ls ← (cs.splitOn '\n').mapM parseLine
  .ok ls.flatten

/-- Assembling and running a program's text from a state: its list of output records (R55, R121). A text with one bad line
has no record at all: DESIGN CHOICE (log entry 17). -/
def runText (s : State) (text : String) : Except ProgramError (List Outputs) := do
  let ls ← parseProgram text.toList
  runLines s [] ls

end Machine

end Sys2Proof
end

