-- ==== Sys2Proof/Laws/Ops.lean ====
section
/-! SUPPORT. One lemma for each shared operation, saying once what it can do. -/

namespace Sys2Proof.Machine

/-- The one answer of an encode operation. -/
theorem runEncode_next (c : Codec) (p : Precision) (s t : State) :
    runEncode c p s = .next t ↔ t = s.settle (encodeOutputs c p s.ins) := by
  simp [runEncode, eq_comm]

/-- The one answer of a decode operation. -/
theorem runDecode_next (c : Codec) (p : Precision) (s t : State) :
    runDecode c p s = .next t ↔ t = s.settle (decodeOutputs c p s.ins) := by
  simp [runDecode, eq_comm]

/-- The one answer to an illegal command. -/
theorem reportIllegal_next (s t : State) : reportIllegal s = .next t ↔ t = s.settle illegalOutputs := by
  simp [reportIllegal, eq_comm]

/-- An operation is its codec's encode path or decode path at its precision. -/
theorem exec_cases (i : Instr) (s : State) :
    (i.direction = .encode ∧ exec i s = runEncode i.codec i.precision s) ∨
    (i.direction = .decode ∧ exec i s = runDecode i.codec i.precision s) := by
  cases i <;> first | exact .inl ⟨rfl, rfl⟩ | exact .inr ⟨rfl, rfl⟩

/-- What a step can do: run the decoded operation, or report an illegal command. -/
theorem step_cases (s : State) :
    (∃ i, decode s.ins.cmd = .ok i ∧ step s = exec i s) ∨
    (∃ r, decode s.ins.cmd = .error r ∧ step s = reportIllegal s) := by
  unfold step
  cases h : decode s.ins.cmd with
  | ok i => exact .inl ⟨i, rfl, rfl⟩
  | error r => exact .inr ⟨r, rfl, rfl⟩

/-- The frame of every operation: the input signals are unchanged. -/
theorem exec_ins (i : Instr) (s t : State) (h : exec i s = .next t) : t.ins = s.ins := by
  rcases exec_cases i s with ⟨_, e⟩ | ⟨_, e⟩
  · rw [e, runEncode_next] at h; simp [h]
  · rw [e, runDecode_next] at h; simp [h]

/-- The outputs of an operation do not depend on the outputs before it. -/
theorem exec_drive_congr (i : Instr) (s t : State) (h : s.ins = t.ins) : exec i s = exec i t := by
  rcases exec_cases i s with ⟨ds, es⟩ | ⟨ds, es⟩ <;> rcases exec_cases i t with ⟨dt, et⟩ | ⟨dt, et⟩
  · rw [es, et]; simp [runEncode, State.settle, h]
  · rw [ds] at dt; cases dt
  · rw [ds] at dt; cases dt
  · rw [es, et]; simp [runDecode, State.settle, h]

/-- A strict transaction that answers a next state is a step whose ERR is not the illegal report. -/
theorem transactStrict_next (s t : State) (i : Inputs) (h : transactStrict s i = .next t) :
    step (s.drive i) = .next t ∧ t.outs.err ≠ errIllegal := by
  unfold transactStrict at h
  split at h
  · rename_i u hu
    split at h
    · cases h
    · rename_i hne
      cases h
      exact ⟨hu, hne⟩
  · cases h
  · cases h

/-- One more digit multiplies by the base and adds the digit's place in its alphabet. -/
theorem digitsValue_snoc (alphabet : List Char) (c d : Char) (cs : List Char) :
    digitsValue alphabet (c :: cs ++ [d]) =
      (digitsValue alphabet (c :: cs)).bind
        (fun n => (alphabet.idxOf? d).map (fun v => alphabet.length * n + v)) := by
  simp only [digitsValue, List.cons_append]
  rw [← List.cons_append, List.foldlM_append]
  simp [Option.bind_eq_bind]

/-- A sample before LATENCY leaves the inputs as driven. -/
theorem sample_early (s : State) (i : Inputs) (elapsed n : Nat) (h : elapsed < Config.latency) :
    sample s i elapsed n = .next ((s.drive i).settle (unsettledOutputs n)) := by
  simp [sample, Nat.not_le.mpr h]

end Sys2Proof.Machine
end

