-- ==== Sys2Proof/Laws/PerInstr.lean ====
section
/-! SUPPORT. Statements made of every operation, one lemma for each constructor. -/

/-- The command word of an operation holds the fields of R40 for its codec, direction and precision, they are legal, and
only the five bits R16 gives a meaning are ever set. -/
def Sys2Proof.Laws.CommandFields.Statement (i : Sys2Proof.Instr) : Prop :=
  Sys2Proof.commandFields (Sys2Proof.encode i) = i.fields ∧ i.WellFormed ∧ (Sys2Proof.encode i).toNat < 32

namespace Sys2Proof.Laws.CommandFields

theorem encU9E5 : Statement .encU9E5 := by unfold Statement; decide
theorem encS8E5 : Statement .encS8E5 := by unfold Statement; decide
theorem encUR9E2 : Statement .encUR9E2 := by unfold Statement; decide
theorem encS13E6 : Statement .encS13E6 := by unfold Statement; decide
theorem encUR14E3 : Statement .encUR14E3 := by unfold Statement; decide
theorem encS18E7F32 : Statement .encS18E7F32 := by unfold Statement; decide
theorem encS18E7F64 : Statement .encS18E7F64 := by unfold Statement; decide
theorem decU9E5 : Statement .decU9E5 := by unfold Statement; decide
theorem decS8E5 : Statement .decS8E5 := by unfold Statement; decide
theorem decUR9E2 : Statement .decUR9E2 := by unfold Statement; decide
theorem decS13E6 : Statement .decS13E6 := by unfold Statement; decide
theorem decUR14E3 : Statement .decUR14E3 := by unfold Statement; decide
theorem decS18E7F32 : Statement .decS18E7F32 := by unfold Statement; decide
theorem decS18E7F64 : Statement .decS18E7F64 := by unfold Statement; decide

end Sys2Proof.Laws.CommandFields
end

