-- ==== Sys2Proof/Tests/Slice0.lean ====
section
/-! SUPPORT. Tests whose expected values are the spec's own (41_encode.md, 42_decode.md examples, 95_test_vectors.md), the
smoke tests of the well-formedness checks, and one witness for each hypothesis of a statement. -/

namespace Sys2Proof.Tests

open Sys2Proof.Machine

/-! ## Decoding: the fourteen words of R41, bit by bit -/

theorem test_decode_encU9E5 : decode 0b00000000#8 = .ok .encU9E5 := by decide
theorem test_decode_encS8E5 : decode 0b00000001#8 = .ok .encS8E5 := by decide
theorem test_decode_encUR9E2 : decode 0b00000010#8 = .ok .encUR9E2 := by decide
theorem test_decode_encS13E6 : decode 0b00000011#8 = .ok .encS13E6 := by decide
theorem test_decode_encUR14E3 : decode 0b00000100#8 = .ok .encUR14E3 := by decide
theorem test_decode_encS18E7F32 : decode 0b00000101#8 = .ok .encS18E7F32 := by decide
theorem test_decode_encS18E7F64 : decode 0b00010101#8 = .ok .encS18E7F64 := by decide
theorem test_decode_decU9E5 : decode 0b00001000#8 = .ok .decU9E5 := by decide
theorem test_decode_decS8E5 : decode 0b00001001#8 = .ok .decS8E5 := by decide
theorem test_decode_decUR9E2 : decode 0b00001010#8 = .ok .decUR9E2 := by decide
theorem test_decode_decS13E6 : decode 0b00001011#8 = .ok .decS13E6 := by decide
theorem test_decode_decUR14E3 : decode 0b00001100#8 = .ok .decUR14E3 := by decide
theorem test_decode_decS18E7F32 : decode 0b00001101#8 = .ok .decS18E7F32 := by decide
theorem test_decode_decS18E7F64 : decode 0b00011101#8 = .ok .decS18E7F64 := by decide

theorem test_decode_reserved_bits : decode 0x20#8 = .error (.reservedBits 1) := by decide
theorem test_decode_reserved_codec : decode 0x16#8 = .error (.reservedCodec 6) := by decide
theorem test_decode_no_binary64 : decode 0x1C#8 = .error (.precisionNotAvailable .ur14e3) := by decide
theorem test_table_word : decodeTableWord 8 0x15 = some .encS18E7F64 := by decide
theorem test_table_word_wide : decodeTableWord 16 0x15 = none := by decide

/-! ## Well-formedness: each check refuses an ill-formed term -/

theorem test_rsvd_refused : ¬ (CommandFields.mk 1 0 0 0).RsvdOk := by decide
theorem test_codec_refused : ¬ (CommandFields.mk 0 0 0 6).CodecOk := by decide
theorem test_prec_refused : ¬ (CommandFields.mk 0 1 0 4).PrecOk := by decide
theorem test_legal_refused : ¬ (CommandFields.mk 0 1 1 0).Legal := by decide
theorem test_exp_bits_refused : ¬ (FormatParams.mk 8 1).Valid := by decide
theorem test_man_bits_refused : ¬ (FormatParams.mk 1 25).Valid := by decide
theorem test_product_refused : ¬ (FormatParams.mk 7 20).Valid := by decide
theorem test_slot_outside_refused : ¬ (Layout.mk 8 0 [⟨.A, 4, 5, .e, 0⟩]).SlotsInside := by decide
theorem test_overlap_refused : ¬ (Layout.mk 8 0 [⟨.A, 3, 5, .e, 0⟩, ⟨.A, 0, 4, .mx, 0⟩]).Disjoint := by decide
theorem test_gap_refused : ¬ (Layout.mk 8 0 [⟨.A, 4, 4, .e, 0⟩, ⟨.A, 0, 3, .mx, 0⟩]).Full := by decide
theorem test_slice_gap_refused : ¬ (Layout.mk 8 0 [⟨.A, 4, 4, .mx, 5⟩, ⟨.A, 0, 4, .mx, 0⟩]).SlicesContiguous := by decide

/-! ## One transaction -/

/-- The outputs of one step on driven inputs. -/
def outputsOf (i : Inputs) : Option Outputs :=
  match step (State.reset.drive i) with
  | .next t => some t.outs
  | .fault _ => none
  | .refused _ => none

/-- An encode of three patterns: its words and ERR. -/
def enc (cmd : CommandWord) (x y z : Nat) : Option (PackedWord × PackedWord × ErrBit) :=
  (outputsOf { cmd := cmd, inX := BitVec.ofNat 64 x, inY := BitVec.ofNat 64 y, inZ := BitVec.ofNat 64 z,
               inA := 0xFFFFFFFF, inB := 0xFFFFFFFF }).map (fun o => (o.outA, o.outB, o.err))

/-- A decode of two words: its channels and ERR. -/
def dec (cmd : CommandWord) (a b : Nat) : Option (ChannelWord × ChannelWord × ChannelWord × ErrBit) :=
  (outputsOf { cmd := cmd, inX := 5, inY := 6, inZ := 7, inA := BitVec.ofNat 32 a, inB := BitVec.ofNat 32 b }).map
    (fun o => (o.outX, o.outY, o.outZ, o.err))

/-- R86 example. -/
theorem test_encU9E5 : enc 0x00 0x3F800000 0x3F000000 0xBE800000 = some (0x80010100, 0x00000000, 0) := by decide +kernel
/-- V-U9E5-E10. -/
theorem test_encU9E5_carry : enc 0x00 0x3F7FC000 0x0 0x0 = some (0x80000100, 0x00000000, 0) := by decide +kernel
/-- R87 example. -/
theorem test_encS8E5 : enc 0x01 0x3F800000 0x3F000000 0xBE800000 = some (0x84808080, 0x00000000, 0) := by decide +kernel
/-- V-S8E5-E16. -/
theorem test_encS8E5_clamp : enc 0x01 0x7149F2CA 0xC0400000 0x35800000 = some (0xF80200FF, 0x00000000, 0) := by decide +kernel
/-- R88 example. -/
theorem test_encUR9E2 : enc 0x02 0x3F800000 0x3F000000 0xBE800000 = some (0xA4020100, 0x00000000, 0) := by decide +kernel
/-- V-UR9E2-E19. -/
theorem test_encUR9E2_clamp : enc 0x02 0x40600000 0x3F400000 0x0 = some (0x80030100, 0x00000000, 0) := by decide +kernel
/-- R89 example. -/
theorem test_encS13E6 : enc 0x03 0x3F800000 0x3F000000 0xBE800000 = some (0x81001000, 0x00008400, 0) := by decide +kernel
/-- V-S13E6-E4. -/
theorem test_encS13E6_inf : enc 0x03 0xFF800000 0xFF800000 0xFF800000 = some (0xFFFFFFFF, 0x0000FFFF, 0) := by decide +kernel
/-- R90 example. -/
theorem test_encUR14E3 : enc 0x04 0x3F800000 0x3F000000 0xBE800000 = some (0x44002000, 0x00008800, 0) := by decide +kernel
/-- V-UR14E3-E20. -/
theorem test_encUR14E3_saturates : enc 0x04 0x41800000 0x41000000 0xBF000000 = some (0xC8003FFF, 0x0000C200, 0) := by decide +kernel
/-- R91 example. -/
theorem test_encS18E7F32 : enc 0x05 0x3F800000 0x3F000000 0xBE800000 = some (0x00020000, 0x81080004, 0) := by decide +kernel
/-- V-S18E7-E12. -/
theorem test_encS18E7F32_ties : enc 0x05 0x3F800000 0x37A00000 0x37400000 = some (0x000E0000, 0x80000020, 0) := by decide +kernel
/-- R92 example. -/
theorem test_encS18E7F64 : enc 0x15 0x3FF0000000000000 0x3FE0000000000000 0xBFD0000000000000 = some (0x00020000, 0x81080004, 0) := by decide +kernel
/-- V-S18E7-F7. -/
theorem test_encS18E7F64_below_tie : enc 0x15 0x3FEFFFFBFFFFFFFE 0x0 0x0 = some (0x0003FFFF, 0x7E000000, 0) := by decide +kernel
/-- R94 example. -/
theorem test_decU9E5 :
    dec 0x08 0x80010100 0x0 = some (0x3F800000, 0x3F000000, 0x0, 0) := by decide +kernel
/-- V-U9E5-D4. -/
theorem test_decU9E5_top :
    dec 0x08 0xF803FE01 0x0 = some (0x43000000, 0x477F8000, 0x0, 0) := by decide +kernel
/-- R95 example. -/
theorem test_decS8E5 :
    dec 0x09 0x84808080 0x0 = some (0x3F800000, 0x3F000000, 0xBE800000, 0) := by decide +kernel
/-- V-S8E5-D5. -/
theorem test_decS8E5_negative_zero :
    dec 0x09 0x2C000100 0x0 = some (0x80000000, 0x0, 0x80000000, 0) := by decide +kernel
/-- R96 example. -/
theorem test_decUR9E2 :
    dec 0x0A 0xA4020100 0x0 = some (0x3F800000, 0x3F000000, 0xBE800000, 0) := by decide +kernel
/-- V-UR9E2-D8. -/
theorem test_decUR9E2_code3 :
    dec 0x0A 0xC01C01FF 0x0 = some (0x407F8000, 0xC0000000, 0x3C000000, 0) := by decide +kernel
/-- R97 example. -/
theorem test_decS13E6 :
    dec 0x0B 0x81001000 0x8400 = some (0x3F800000, 0x3F000000, 0xBE800000, 0) := by decide +kernel
/-- V-S13E6-D8. -/
theorem test_decS13E6_ignores_high :
    dec 0x0B 0x81001000 0xFFFF8400 = some (0x3F800000, 0x3F000000, 0xBE800000, 0) := by decide +kernel
/-- R98 example. -/
theorem test_decUR14E3 :
    dec 0x0C 0x44002000 0x8800 = some (0x3F800000, 0x3F000000, 0xBE800000, 0) := by decide +kernel
/-- V-UR14E3-D10. -/
theorem test_decUR14E3_split_exponent :
    dec 0x0C 0x3FFF 0xFFFF4000 = some (0x3EFFFC00, 0x0, 0x0, 0) := by decide +kernel
/-- R99 example. -/
theorem test_decS18E7F32 :
    dec 0x0D 0x20000 0x81080004 = some (0x3F800000, 0x3F000000, 0xBE800000, 0) := by decide +kernel
/-- V-S18E7-D8. -/
theorem test_decS18E7F32_split_mantissa :
    dec 0x0D 0xFFFC0000 0xF = some (0x0, 0x1FFFFFC0, 0x0, 0) := by decide +kernel
/-- R100 example. -/
theorem test_decS18E7F64 :
    dec 0x1D 0x20000 0x81080004 = some (0x3FF0000000000000, 0x3FE0000000000000, 0xBFD0000000000000, 0) := by decide +kernel
/-- V-S18E7-G1. -/
theorem test_decS18E7F64_all_ones :
    dec 0x1D 0xFFFFFFFF 0xFFFFFFFF = some (0xC3EFFFF800000000, 0xC3EFFFF800000000, 0xC3EFFFF800000000, 0) := by decide +kernel

/-- V-CMD-10. -/
theorem test_illegal_command : enc 0x10 0x3F800000 0x3F800000 0x3F800000 = some (0, 0, 1) := by decide +kernel
/-- V-CMD-22: the word of V-CMD-3 under another codec. -/
theorem test_decode_other_codec : dec 0x0D 0x84020100 0 = some (0x1F804000, 0x1D840000, 0, 0) := by decide +kernel

/-- V-RHU-2, V-RHU-3: ties round up, not to even. -/
theorem test_rhu_ties : rhu 3 0 1 = 2 ∧ rhu 5 0 1 = 3 := by decide
/-- V-RHU-5: just below the tie. -/
theorem test_rhu_below_tie : rhu 0xFFFFFF (-49) (-24) = 0 := by decide
/-- V-RHU-7: the shift to the left. -/
theorem test_rhu_left : rhu 1 4 (-10) = 16384 := by decide

/-- A command driven on CMD is what the next step runs. -/
theorem test_fetch_word : step (State.reset.withFetchWord 8 0x09) = exec .decS8E5 (State.reset.withFetchWord 8 0x09) := rfl

/-- P4, through the assembler: saturation, decode, and a re-encode of named results. -/
theorem test_program_p4 :
    (runText State.reset
      "t1: ENC.UR14E3  100.0, -16.0, 0x3A83126F  ; saturates\nt2: DEC.UR14E3  t1.A, t1.B\nt3: ENC.UR14E3  t2.X, t2.Y, t2.Z"
      ).toOption.map (List.map (fun o => (o.outA, o.outB, o.outZ))) =
    some [(0xAFFFFFFF, 0xC001, 0), (0, 0, 0x3A800000), (0xAFFFFFFF, 0xC001, 0)] := by decide +kernel

/-- R55: the round-trip pseudo-instruction. -/
theorem test_round_trip_line :
    (runText State.reset "RT.S18E7.F64 1.0, -0.0, nan").toOption.map (List.map (fun o => (o.outX, o.outY, o.outZ))) =
    some [(0, 0, 0), (0x3FF0000000000000, 0x8000000000000000, 0)] := by decide +kernel

/-- R55: a decimal literal must be exact. -/
theorem test_inexact_literal : (runText State.reset "ENC.U9E5 0.1, 0, 0").toOption = none := by decide +kernel

/-- I5: a host that must not issue an illegal command sees a fault. -/
theorem test_strict_fault :
    transactStrict State.reset { Inputs.reset with cmd := 0xFF } = .fault (.illegalCmd 0xFF) := rfl

/-! ## Witnesses: for each statement with hypotheses, values that meet them -/

/-- A state with the given command, channel patterns and words. -/
def sample0 (cmd : CommandWord) (x y z : ChannelWord) (a b : PackedWord) : State :=
  State.reset.drive { cmd := cmd, inX := x, inY := y, inZ := z, inA := a, inB := b }

theorem witness_CommandEncodingsRoundTrip : Instr.WellFormed .decS18E7F64 ∧ decode 0x1D#8 = .ok .decS18E7F64 := by decide
theorem witness_StepRunsDecodedCommand : decode (sample0 0x1D 0 0 0 0 0).ins.cmd = .ok .decS18E7F64 := by decide
theorem witness_IllegalCommandReportsErr : ¬ LegalCommand (sample0 0x06 1 2 3 4 5).ins.cmd := by decide
theorem witness_ErrFollowsLegality :
    ¬ LegalCommand (sample0 0x20 0 0 0 0 0).ins.cmd ∧ LegalCommand (sample0 0x05 0 0 0 0 0).ins.cmd := by decide
theorem witness_TransactionsIndependent :
    step ((sample0 0x00 0 0 0 0 0).drive { Inputs.reset with cmd := 0xFF }) =
      .next ((sample0 0xFF 0 0 0 0 0).settle illegalOutputs) := rfl
theorem witness_TransactionIdempotent :
    step (sample0 0xFF 0 0 0 0 0) = .next ((sample0 0xFF 0 0 0 0 0).settle illegalOutputs) := rfl

theorem witness_ClassifyExact :
    0xFFFFFFFF < 2 ^ Precision.binary32.width ∧ (classify .binary32 0x7F800001).cls = .nan ∧
      (classify .binary32 0xFF800000).cls = .inf ∧ (classify .binary32 0x007FFFFF).cls = .fin ∧
      (classify .binary32 0x7F7FFFFF).cls = .fin ∧ (classify .binary32 0x80000000).sign = true := by decide

/-- The largest magnitude below the carry tie of UR14E3's top exponent, in binary32 units, and the tie itself. -/
theorem witness_CarryFiresExactly :
    startMantissa Codec.ur14e3.params .binary32 (32767 <<< 138) = Codec.ur14e3.params.mantissaValues ∧
      startMantissa Codec.ur14e3.params .binary32 (32767 <<< 138 - 1) ≠ Codec.ur14e3.params.mantissaValues := by decide
theorem witness_StartExponentExact : 0 < (classify .binary32 1).mag := by decide
theorem witness_SelectExponentExact :
    carriedExp Codec.s8e5.params .binary32 (Codec.s8e5.clampUnits .binary32) ≤ Codec.s8e5.params.maxValidBiasedExp ∧
      startMantissa Codec.s8e5.params .binary32 (511 <<< 140) = Codec.s8e5.params.mantissaValues ∧
      carriedExp Codec.s8e5.params .binary32 (511 <<< 140) ≤ Codec.s8e5.params.maxValidBiasedExp := by decide

/-- Just below 511.5 * 2^-10, and K itself. -/
theorem witness_SelectorRange :
    1023 <<< 138 - 1 ≤ Codec.ur9e2.clampUnits .binary32 ∧
      magValue .binary32 (1023 <<< 138 - 1) <
        ((Codec.ur9e2.params.mantissaValues : ℚ) - 1 / 2) *
          2 ^ (-(Codec.ur9e2.params.expBias : ℤ) - Codec.ur9e2.params.manBits) ∧
      Codec.ur9e2.clampUnits .binary32 ≤ Codec.ur9e2.clampUnits .binary32 := by
  refine ⟨by decide, ?_, le_refl _⟩
  norm_num [magValue, Precision.unitExp, Precision.expBias, Precision.fracBits, FormatParams.mantissaValues,
    FormatParams.expBias, FormatParams.maxValidBiasedExp, Codec.params, Nat.shiftLeft_eq]

theorem witness_SaturationBindsOnlyUR14E3 :
    32767 <<< 138 ≤ Codec.ur14e3.clampUnits .binary32 ∧
      (Codec.ur14e3.params.maxValidBiasedExp : ℤ) < carriedExp Codec.ur14e3.params .binary32 (32767 <<< 138) ∧
      carriedExp Codec.ur14e3.params .binary32 (32767 <<< 138 - 1) ≤ Codec.ur14e3.params.maxValidBiasedExp := by decide
theorem witness_QuantizeExact :
    Codec.s13e6.params.Valid ∧ 5 ≤ Codec.s13e6.clampUnits .binary32 ∧
      carriedExp Codec.s13e6.params .binary32 (Codec.s13e6.clampUnits .binary32) ≤
        Codec.s13e6.params.maxValidBiasedExp := by decide

theorem witness_QuantizerProperties :
    (Codec.s8e5.params.Valid ∧ startMantissa Codec.s8e5.params .binary32 (511 <<< 140) = Codec.s8e5.params.mantissaValues ∧
      carriedExp Codec.s8e5.params .binary32 (511 <<< 140) ≤ Codec.s8e5.params.maxValidBiasedExp) ∧
    (32767 <<< 138 + 1 ≤ Codec.ur14e3.clampUnits .binary32 ∧
      (Codec.ur14e3.params.maxValidBiasedExp : ℤ) < carriedExp Codec.ur14e3.params .binary32 (Codec.ur14e3.clampUnits .binary32)) ∧
    (16383.5 / 1024 : ℚ) < magValue .binary32 (32767 <<< 138 + 1) := by
  refine ⟨by decide, by decide, ?_⟩
  norm_num [magValue, Precision.unitExp, Precision.expBias, Precision.fracBits, Nat.shiftLeft_eq]

theorem witness_UnpackPack :
    ({ e := 127, mx := 262143, my := 262143, mz := 0, sx := true, sy := false, sz := true } : Fields).InRange .s18e7 := by
  decide
theorem witness_PackUnpack :
    0xFFFFFFFF < 2 ^ Codec.ur14e3.layout.bitsA ∧ 0xFFFF < 2 ^ Codec.ur14e3.layout.bitsB := by decide
theorem witness_ToIeeeExact :
    (0 < 1 ∧ 1 < 2 ^ 24 ∧ 0 < ieeeExponent .binary32 1 (-126) ∧ ieeeExponent .binary32 1 (-126) < Precision.binary32.expAllOnes) ∧
    (2 ^ 24 - 1 < 2 ^ 24 ∧ 0 < ieeeExponent .binary32 (2 ^ 24 - 1) 104 ∧
      ieeeExponent .binary32 (2 ^ 24 - 1) 104 < Precision.binary32.expAllOnes) := by decide
theorem witness_DecodedChannelsExact :
    Instr.direction .decU9E5 = .decode ∧ (decodedFields .u9e5 (sample0 8 0 0 0 0x1FF 0).ins).man .x = 511 ∧
      (decodedFields .u9e5 (sample0 8 0 0 0 0x1FF 0).ins).man .y = 0 ∧ Codec.u9e5.signed = false := by decide
theorem witness_Paired : Paired .encS18E7F64 .decS18E7F64 ∧ Paired .encU9E5 .decU9E5 := by decide

/-- A lane at the grid maximum of U9E5, and one just above it. -/
theorem witness_RoundTripAccuracy :
    Paired .encU9E5 .decU9E5 ∧ IsFinite .binary32 (laneBits .binary32 (sample0 0 0x477F8000 0x477F8001 0 0 0).ins .x) ∧
    IsFinite .binary32 (laneBits .binary32 (sample0 0 0x477F8000 0x477F8001 0 0 0).ins .y) ∧
    ieeeValue .binary32 (laneBits .binary32 (sample0 0 0x477F8000 0x477F8001 0 0 0).ins .x) = gridMax .u9e5 ∧
    gridMax .u9e5 < ieeeValue .binary32 (laneBits .binary32 (sample0 0 0x477F8000 0x477F8001 0 0 0).ins .y) ∧
    (0 : ℚ) ≤ gridMax .u9e5 := by
  have hx : laneBits .binary32 (sample0 0 0x477F8000 0x477F8001 0 0 0).ins .x = 0x477F8000 := by decide
  have hy : laneBits .binary32 (sample0 0 0x477F8000 0x477F8001 0 0 0).ins .y = 0x477F8001 := by decide
  have sx : signOf .binary32 0x477F8000 = false ∧ expOf .binary32 0x477F8000 = 142 ∧ fracOf .binary32 0x477F8000 = 8355840 := by
    decide
  have sy : signOf .binary32 0x477F8001 = false ∧ expOf .binary32 0x477F8001 = 142 ∧ fracOf .binary32 0x477F8001 = 8355841 := by
    decide
  rw [hx, hy]
  refine ⟨by decide, by decide, by decide, ?_, ?_, ?_⟩ <;>
    norm_num [ieeeValue, applySign, ieeeMagnitude, sx, sy, gridMax, FormatParams.gmax, FormatParams.maxMantissa,
      FormatParams.mantissaValues, FormatParams.maxExp, FormatParams.expBias, FormatParams.maxValidBiasedExp, Codec.params,
      Codec.clampConstant, Precision.fracBits, Precision.expBias]

/-- DEC.UR9E2 of 0x80000100, whose lanes are 1.0, 0 and 0. -/
theorem witness_RedecodeIsIdentity :
    Paired .encUR9E2 .decUR9E2 ∧ Instr.codec .decUR9E2 = .ur9e2 ∧
    ∀ l : Lane, |ieeeValue .binary32 ((decodeOutputs .ur9e2 .binary32 (sample0 0x0A 0 0 0 0x80000100 0).ins).port l).toNat| ≤ 1 := by
  refine ⟨by decide, rfl, fun l => ?_⟩
  have h1 : signOf .binary32 0x3F800000 = false ∧ expOf .binary32 0x3F800000 = 127 ∧ fracOf .binary32 0x3F800000 = 0 := by decide
  have h0 : signOf .binary32 0 = false ∧ expOf .binary32 0 = 0 ∧ fracOf .binary32 0 = 0 := by decide
  have hx : ((decodeOutputs .ur9e2 .binary32 (sample0 0x0A 0 0 0 0x80000100 0).ins).port .x).toNat = 0x3F800000 := by
    decide +kernel
  have hy : ((decodeOutputs .ur9e2 .binary32 (sample0 0x0A 0 0 0 0x80000100 0).ins).port .y).toNat = 0 := by
    decide +kernel
  have hz : ((decodeOutputs .ur9e2 .binary32 (sample0 0x0A 0 0 0 0x80000100 0).ins).port .z).toNat = 0 := by
    decide +kernel
  cases l <;> simp only [hx, hy, hz] <;>
    norm_num [ieeeValue, applySign, ieeeMagnitude, h0, h1, Precision.fracBits, Precision.expBias]

/-- 1.0, a NaN and -inf in both precisions. -/
theorem witness_PrecisionsAgreeOnEncode (l : Lane) :
    SameDatum (laneBits .binary32 (sample0 5 0x3F800000 0x7FC00000 0xFF800000 0 0).ins l)
      (laneBits .binary64 (sample0 0x15 0x3FF0000000000000 0x7FF8000000000000 0xFFF0000000000000 0 0).ins l) := by
  cases l with
  | x =>
    refine .inr ⟨by decide, .inr ⟨by decide, by decide, ?_⟩⟩
    have h : laneBits .binary32 (sample0 5 0x3F800000 0x7FC00000 0xFF800000 0 0).ins .x = 0x3F800000 := by decide
    have k : laneBits .binary64 (sample0 0x15 0x3FF0000000000000 0x7FF8000000000000 0xFFF0000000000000 0 0).ins .x =
        0x3FF0000000000000 := by decide
    have a : expOf .binary32 0x3F800000 = 127 ∧ fracOf .binary32 0x3F800000 = 0 := by decide
    have b : expOf .binary64 0x3FF0000000000000 = 1023 ∧ fracOf .binary64 0x3FF0000000000000 = 0 := by decide
    rw [h, k]
    norm_num [ieeeMagnitude, a, b, Precision.fracBits, Precision.expBias]
  | y => exact .inl (by decide)
  | z => exact .inr ⟨by decide, .inl (by decide)⟩

/-- Two records that differ in every ignored bit and share a lane, its largest magnitude and the exponent. -/
theorem witness_LanesShareOnlyExponent :
    let i := (sample0 0 0x3F800000 0x3F000000 0 0 0).ins
    let j := (sample0 0 0x3F800000 0x3E800000 0 0 0).ins
    maxMag .s8e5 .binary32 i = maxMag .s8e5 .binary32 j ∧ laneBits .binary32 i .x = laneBits .binary32 j .x ∧
      (encodedFields .s8e5 .binary32 i).e = (encodedFields .s8e5 .binary32 j).e := by decide
theorem witness_IgnoredInputsReachNoOutput :
    (∀ l : Lane, ((sample0 0 0xFFFFFFFF3F800000 1 2 3 4).ins.port l).toNat % 2 ^ Precision.binary32.width =
      ((sample0 0 0x3F800000 1 2 5 6).ins.port l).toNat % 2 ^ Precision.binary32.width) ∧
    (sample0 0 1 1 1 7 0xFFFF0001).ins.inA = (sample0 0 2 2 2 7 1).ins.inA ∧
    (sample0 0 1 1 1 7 0xFFFF0001).ins.inB.toNat % 2 ^ Codec.s13e6.layout.bitsB =
      (sample0 0 2 2 2 7 1).ins.inB.toNat % 2 ^ Codec.s13e6.layout.bitsB := by
  refine ⟨fun l => ?_, by decide, by decide⟩
  cases l <;> decide
theorem witness_UnusedOutputsAreZero : Instr.direction .encS13E6 = .encode ∧ Instr.direction .decS13E6 = .decode := by decide

/-- A lane at exactly the grid maximum of UR14E3, an infinity, and a set sign bit in the unsigned codec. -/
theorem witness_TopMagnitudesSaturate :
    MagAtLeast .binary32 (laneBits .binary32 (sample0 4 0x417FFC00 0xFF800000 0 0 0).ins .x) (gridMax .ur14e3) ∧
    MagAtLeast .binary32 (laneBits .binary32 (sample0 4 0x417FFC00 0xFF800000 0 0 0).ins .y) (gridMax .ur14e3) ∧
    Codec.ur14e3.signed = true ∧ Codec.u9e5.signed = false ∧ signOf .binary32 0x80000000 = true := by
  refine ⟨.inr ⟨by decide, ?_⟩, .inl (by decide), rfl, rfl, by decide⟩
  have hx : laneBits .binary32 (sample0 4 0x417FFC00 0xFF800000 0 0 0).ins .x = 0x417FFC00 := by decide
  have sx : expOf .binary32 0x417FFC00 = 130 ∧ fracOf .binary32 0x417FFC00 = 8387584 := by decide
  rw [hx]
  norm_num [ieeeMagnitude, sx, gridMax, FormatParams.gmax, FormatParams.maxMantissa, FormatParams.mantissaValues,
    FormatParams.maxExp, FormatParams.expBias, FormatParams.maxValidBiasedExp, Codec.params, Codec.clampConstant,
    Precision.fracBits, Precision.expBias]
theorem witness_TinyAndNaNChannelsEncodeToZero :
    IsNaN .binary32 (laneBits .binary32 (sample0 1 0xFF800001 0x807FFFFF 1 0 0).ins .x) ∧
    IsSubnormal .binary32 (laneBits .binary32 (sample0 1 0xFF800001 0x807FFFFF 1 0 0).ins .y) ∧
    IsSubnormal .binary32 (laneBits .binary32 (sample0 1 0xFF800001 0x807FFFFF 1 0 0).ins .z) ∧
    Codec.s8e5.signed = true := by decide
theorem witness_InvalidParametersRefused :
    (1 ≤ 7 ∧ 7 ≤ 7 ∧ 1 ≤ 19 ∧ 19 ≤ 24 ∧ 7 * 19 ≤ 133) ∧ ¬ (1 ≤ 7 ∧ 7 ≤ 7 ∧ 1 ≤ 20 ∧ 20 ≤ 24 ∧ 7 * 20 ≤ 133) := by decide
theorem witness_DerivedConstantsClosedForms :
    (FormatParams.mk 7 19).Valid ∧ (FormatParams.mk 1 1).Valid ∧ 127 ≤ (FormatParams.mk 7 19).maxValidBiasedExp ∧
      524287 ≤ (FormatParams.mk 7 19).maxMantissa := by decide
theorem witness_SampleAfterLatencyIsStep : Config.latency ≤ Config.latency := le_refl _

end Sys2Proof.Tests
end

section
/-! PROOFS. The command decoder: which command words decode, and what they decode to (30_encoding.md R39 to R41). -/

namespace Sys2Proof

/-- The CODEC field names a codec exactly when it is at most 5 (R16). -/
theorem codecOfCode_isSome_iff (code : BitVec 3) : (codecOfCode code).isSome ↔ code.toNat ≤ 5 := by
  decide +revert

/-- CODEC 5 is S18E7, the one codec with binary64 channels (R16). -/
theorem codecOfCode_eq_s18e7_iff (code : BitVec 3) : codecOfCode code = some .s18e7 ↔ code = 5 := by
  decide +revert

/-- PREC 0 is binary32 (R16). -/
theorem precisionOfCode_eq_binary32_iff (code : BitVec 1) : precisionOfCode code = .binary32 ↔ code = 0 := by
  decide +revert

/-- Every codec has both directions with binary32 channels, and S18E7 alone with binary64 channels (R41). -/
theorem operationOf_isSome_iff (c : Codec) (d : Direction) (p : Precision) :
    (operationOf c d p).isSome ↔ p = .binary32 ∨ c = .s18e7 := by
  cases p with
  | binary32 => cases c <;> cases d <;> decide
  | binary64 => cases c <;> cases d <;> decide

/-- A command word decodes to the operation its CODEC, DIR and PREC fields name, where RSVD is 0 (R40). -/
theorem decode_eq_ok_iff (w : CommandWord) (i : Instr) :
    decode w = .ok i ↔ (commandFields w).rsvd = 0 ∧ ∃ c, codecOfCode (commandFields w).codec = some c ∧
      operationOf c (directionOfCode (commandFields w).dir) (precisionOfCode (commandFields w).prec) = some i := by
  unfold decode
  generalize commandFields w = f
  by_cases hr : f.rsvd = 0#3
  · cases hc : codecOfCode f.codec with
    | none => simp [hr, hc]
    | some c => cases ho : operationOf c (directionOfCode f.dir) (precisionOfCode f.prec) <;> simp [hr, hc, ho]
  · simp [hr]

/-- The decoder accepts the legal command words and no others: each test it makes is one of the conditions of R39. -/
theorem decode_ok_iff_legal (w : CommandWord) : (∃ i, decode w = .ok i) ↔ LegalCommand w := by
  simp only [decode_eq_ok_iff]
  constructor
  · rintro ⟨i, hrsvd, c, hcodec, hop⟩
    have hprec := (operationOf_isSome_iff _ _ _).mp (Option.isSome_of_mem hop)
    refine ⟨hrsvd, (codecOfCode_isSome_iff _).mp (Option.isSome_of_mem hcodec), hprec.imp ?_ ?_⟩
    · exact (precisionOfCode_eq_binary32_iff _).mp
    · rintro rfl
      exact (codecOfCode_eq_s18e7_iff _).mp hcodec
  · rintro ⟨hrsvd, hcodec, hprec⟩
    obtain ⟨c, hc⟩ := Option.isSome_iff_exists.mp ((codecOfCode_isSome_iff _).mpr hcodec)
    have havail := hprec.imp (precisionOfCode_eq_binary32_iff _).mpr fun h5 =>
      Option.some_inj.mp (hc.symm.trans ((codecOfCode_eq_s18e7_iff _).mpr h5))
    obtain ⟨i, hop⟩ := Option.isSome_iff_exists.mp ((operationOf_isSome_iff c _ _).mpr havail)
    exact ⟨i, hrsvd, c, hc, hop⟩

/-- The word of R41 for an operation decodes to that operation. -/
theorem decode_encode (i : Instr) : decode (encode i) = .ok i := by
  cases i <;> decide

end Sys2Proof
end

section
/-! PROOFS. A step as one function of the input record (10_state.md R28): what an operation drives on the outputs, and
the equations of `exec`, `blockStep` and `step`. -/

namespace Sys2Proof.Machine

/-- The output record an operation drives; `exec_eq_next` ties it to `exec`. -/
def operationOutputs (op : Instr) (i : Inputs) : Outputs :=
  match op.direction with
  | .encode => encodeOutputs op.codec op.precision i
  | .decode => decodeOutputs op.codec op.precision i

theorem operationOutputs_of_encode {op : Instr} (h : op.direction = .encode) (i : Inputs) :
    operationOutputs op i = encodeOutputs op.codec op.precision i := by
  simp only [operationOutputs, h]

theorem operationOutputs_of_decode {op : Instr} (h : op.direction = .decode) (i : Inputs) :
    operationOutputs op i = decodeOutputs op.codec op.precision i := by
  simp only [operationOutputs, h]

/-- Every operation completes, and drives its outputs and nothing else. -/
theorem exec_eq_next (op : Instr) (s : State) : exec op s = .next (s.settle (operationOutputs op s.ins)) := by
  rcases exec_cases op s with ⟨hdir, hexec⟩ | ⟨hdir, hexec⟩
  · rw [hexec, operationOutputs_of_encode hdir]; rfl
  · rw [hexec, operationOutputs_of_decode hdir]; rfl

/-- An operation reads the operand ports alone, not CMD. -/
theorem operationOutputs_cmd (op : Instr) (i : Inputs) (w : CommandWord) :
    operationOutputs op { i with cmd := w } = operationOutputs op i := by
  cases h : op.direction with
  | encode => rw [operationOutputs_of_encode h, operationOutputs_of_encode h]; rfl
  | decode => rw [operationOutputs_of_decode h, operationOutputs_of_decode h]; rfl

theorem operationOutputs_err (op : Instr) (i : Inputs) : (operationOutputs op i).err = 0 := by
  cases h : op.direction with
  | encode => rw [operationOutputs_of_encode h]; exact wordOutputs_err _ _
  | decode => rw [operationOutputs_of_decode h]; exact channelOutputs_err _ _ _

theorem blockStep_of_ok {i : Inputs} {op : Instr} (h : decode i.cmd = .ok op) : blockStep i = operationOutputs op i := by
  simp only [blockStep, h]
  rfl

theorem blockStep_of_error {i : Inputs} {r : IllegalReason} (h : decode i.cmd = .error r) :
    blockStep i = illegalOutputs := by
  simp only [blockStep, h]

/-- A step completes from every state, and drives `blockStep` of the inputs and nothing else. -/
theorem step_eq_next (s : State) : step s = .next (s.settle (blockStep s.ins)) := by
  rcases step_cases s with ⟨op, hdec, hstep⟩ | ⟨r, hdec, hstep⟩
  · rw [hstep, exec_eq_next, blockStep_of_ok hdec]
  · rw [hstep, blockStep_of_error hdec]; rfl

/-- ERR of a transaction is ERR of its command word (R21). -/
theorem blockStep_err (i : Inputs) : (blockStep i).err = errOf i.cmd := by
  cases hdec : decode i.cmd with
  | ok op =>
    have hlegal : LegalCommand i.cmd := (decode_ok_iff_legal _).mp ⟨op, hdec⟩
    rw [blockStep_of_ok hdec, operationOutputs_err, errOf, if_pos hlegal]
    rfl
  | error r =>
    have hillegal : ¬ LegalCommand i.cmd := by
      rw [← decode_ok_iff_legal, hdec]
      rintro ⟨op, hop⟩
      cases hop
    rw [blockStep_of_error hdec, errOf, if_neg hillegal]
    rfl

/-- A transaction forgets the outputs of the one before it (R14). -/
theorem step_drive_eq (s t : State) (i : Inputs) : step (s.drive i) = step (t.drive i) := by
  rw [step_eq_next, step_eq_next]
  rfl

end Sys2Proof.Machine
end

section
/-! PROOFS. Bits of the packer and the unpacker: how far the OR of shifted slices reaches, and which bits of a word a
slot reads (41_encode.md R85, 42_decode.md R93, 30_encoding.md R51). -/

namespace Sys2Proof.Machine

/-- An OR of values below `2^k` stays below `2^k`. -/
theorem foldl_or_lt {α : Type} (v : α → Nat) (k : Nat) (xs : List α) (acc : Nat) (hacc : acc < 2 ^ k)
    (hxs : ∀ x ∈ xs, v x < 2 ^ k) : xs.foldl (fun acc x => acc ||| v x) acc < 2 ^ k := by
  induction xs generalizing acc with
  | nil => exact hacc
  | cons x xs ih =>
    rw [List.forall_mem_cons] at hxs
    exact ih _ (Nat.or_lt_two_pow hacc hxs.1) hxs.2

/-- A shifted bit field ends where its offset and its width put it. -/
theorem bf_shiftLeft_lt (v off : Nat) {n sh k : Nat} (h : n + sh ≤ k) : bf v off n <<< sh < 2 ^ k := by
  calc bf v off n <<< sh
      = bf v off n * 2 ^ sh := Nat.shiftLeft_eq _ _
    _ < 2 ^ n * 2 ^ sh := Nat.mul_lt_mul_of_pos_right (bf_lt v off n) (Nat.two_pow_pos sh)
    _ = 2 ^ (n + sh) := (Nat.pow_add 2 n sh).symm
    _ ≤ 2 ^ k := Nat.pow_le_pow_right Nat.two_pos h

/-- A bit field below bit `k` is read from the bits below `k` alone. -/
theorem bf_mod_two_pow (v : Nat) {off n k : Nat} (h : off + n ≤ k) : bf (v % 2 ^ k) off n = bf v off n := by
  obtain ⟨d, rfl⟩ := Nat.exists_eq_add_of_le h
  rw [bf_eq_div_mod, bf_eq_div_mod, Nat.add_assoc, Nat.pow_add, Nat.mod_mul_right_div_self, Nat.pow_add,
    Nat.mod_mul_right_mod]

/-- A packed word holds nothing above its format's bits. -/
theorem packWord_lt {l : Layout} (hl : l.SlotsInside) (f : Fields) (w : WordName) : packWord l f w < 2 ^ l.bitsOf w := by
  refine foldl_or_lt (fun s => slotValue f s <<< s.offset) _ _ 0 (Nat.two_pow_pos _) fun s hs => ?_
  obtain ⟨hmem, hword⟩ := List.mem_filter.mp hs
  obtain ⟨-, hin⟩ := hl s hmem
  rw [of_decide_eq_true hword] at hin
  exact bf_shiftLeft_lt _ _ (by omega)

/-- An unpacked field is no wider than its slices reach. -/
theorem unpackField_lt {l : Layout} {n : FieldName} {k : Nat} (hl : ∀ s ∈ l.slots, s.field = n → s.width + s.low ≤ k)
    (a b : Nat) : unpackField l a b n < 2 ^ k := by
  refine foldl_or_lt _ _ _ 0 (Nat.two_pow_pos _) fun s hs => ?_
  obtain ⟨hmem, hfield⟩ := List.mem_filter.mp hs
  exact bf_shiftLeft_lt _ _ (hl s hmem (of_decide_eq_true hfield))

/-- The unpacker reads word B's format bits alone (R18). -/
theorem unpackField_mod_bitsB {l : Layout} (hl : l.SlotsInside) (a b : Nat) (n : FieldName) :
    unpackField l a (b % 2 ^ l.bitsB) n = unpackField l a b n := by
  refine List.foldl_ext _ _ _ fun acc s hs => ?_
  obtain ⟨-, hin⟩ := hl s (List.mem_of_mem_filter hs)
  cases hword : s.word with
  | A => rfl
  | B =>
    rw [hword] at hin
    exact congrArg (fun v => acc ||| (v <<< s.low)) (bf_mod_two_pow b hin)

theorem unpack_mod_bitsB {l : Layout} (hl : l.SlotsInside) (a b : Nat) :
    unpack l a (b % 2 ^ l.bitsB) = unpack l a b := by
  simp only [unpack, unpackField_mod_bitsB hl]

/-- The slots of every codec lie inside its format (R51). -/
theorem layout_slotsInside (c : Codec) : c.layout.SlotsInside := by
  cases c <;> decide

/-- The exponent slices of every codec reach E bits (R51). -/
theorem layout_exponent_width (c : Codec) :
    ∀ s ∈ c.layout.slots, s.field = .e → s.width + s.low ≤ c.params.expBits := by
  cases c <;> decide

/-- The mantissa slices of every codec reach M bits (R51). -/
theorem layout_mantissa_width (c : Codec) :
    ∀ s ∈ c.layout.slots, s.field = .mx ∨ s.field = .my ∨ s.field = .mz → s.width + s.low ≤ c.params.manBits := by
  cases c <;> decide

theorem decodedFields_e_lt (c : Codec) (i : Inputs) : (decodedFields c i).e < 2 ^ c.params.expBits :=
  unpackField_lt (layout_exponent_width c) _ _

theorem decodedFields_man_lt (c : Codec) (i : Inputs) (l : Lane) : (decodedFields c i).man l < 2 ^ c.params.manBits := by
  have hwidth := layout_mantissa_width c
  cases l with
  | x => exact unpackField_lt (fun s hs hf => hwidth s hs (.inl hf)) _ _
  | y => exact unpackField_lt (fun s hs hf => hwidth s hs (.inr (.inl hf))) _ _
  | z => exact unpackField_lt (fun s hs hf => hwidth s hs (.inr (.inr hf))) _ _

end Sys2Proof.Machine
end

section
/-! PROOFS. The patterns a decode writes: the fields of `toIeee`, and the range of its exponents
(40_numeric_engine.md R79). -/

namespace Sys2Proof.Machine

/-- The bits of a pattern: sign, exponent, fraction (R12). -/
theorem width_eq (p : Precision) : p.width = p.fracBits + p.expFieldBits + 1 := by
  cases p <;> rfl

/-- The three fields of a non-zero pattern do not overlap, so their OR is their sum. -/
theorem toIeee_eq_add {p : Precision} {m : Nat} {t : Int} (s : Bool) (hm : m ≠ 0)
    (hexp : (ieeeExponent p m t).toNat < 2 ^ p.expFieldBits) :
    ∃ frac < 2 ^ p.fracBits, toIeee p s m t =
      (s.toNat * 2 ^ p.expFieldBits + (ieeeExponent p m t).toNat) * 2 ^ p.fracBits + frac := by
  refine ⟨(m <<< (p.fracBits + 1 - (Nat.log2 m + 1))) &&& (2 ^ p.fracBits - 1), ?_, ?_⟩
  · exact Nat.and_lt_two_pow _ (Nat.sub_lt (Nat.two_pow_pos _) Nat.one_pos)
  · have hsign : p.width - 1 = p.expFieldBits + p.fracBits := by have := width_eq p; omega
    simp only [toIeee, hm, if_false]
    rw [hsign, Nat.shiftLeft_add, ← Nat.shiftLeft_or_distrib, ← Nat.shiftLeft_add_eq_or_of_lt hexp,
      ← Nat.shiftLeft_add_eq_or_of_lt (Nat.and_lt_two_pow _ (Nat.sub_lt (Nat.two_pow_pos _) Nat.one_pos)),
      Nat.shiftLeft_eq, Nat.shiftLeft_eq]

/-- A pattern fits its precision when its exponent fits the exponent field. -/
theorem toIeee_lt {p : Precision} {m : Nat} {t : Int} (s : Bool)
    (hexp : m ≠ 0 → (ieeeExponent p m t).toNat < 2 ^ p.expFieldBits) : toIeee p s m t < 2 ^ p.width := by
  have hs := Bool.toNat_le s
  by_cases hm : m = 0
  · subst hm
    rw [toIeee_zero, Nat.shiftLeft_eq]
    cases p <;> simp only [Precision.width] <;> omega
  · obtain ⟨frac, hfrac, heq⟩ := toIeee_eq_add s hm (hexp hm)
    have hexp := hexp hm
    rw [heq]
    cases p <;> simp only [Precision.width, Precision.expFieldBits, Precision.fracBits] at * <;> omega

/-- The exponent field of a non-zero pattern is the exponent R79 computes. -/
theorem expOf_toIeee {p : Precision} {m : Nat} {t : Int} (s : Bool) (hm : m ≠ 0)
    (hexp : (ieeeExponent p m t).toNat < 2 ^ p.expFieldBits) :
    expOf p (toIeee p s m t) = (ieeeExponent p m t).toNat := by
  obtain ⟨frac, hfrac, heq⟩ := toIeee_eq_add s hm hexp
  rw [expOf, bf_eq_div_mod, heq, Nat.mul_comm, Nat.mul_add_div (Nat.two_pow_pos _), Nat.div_eq_of_lt hfrac, Nat.add_zero,
    Nat.mul_add_mod', Nat.mod_eq_of_lt hexp]

/-- A zero mantissa is written as a zero pattern. -/
theorem isZero_toIeee_zero (p : Precision) (s : Bool) (t : Int) : IsZero p (toIeee p s 0 t) := by
  rw [toIeee_zero]
  cases p <;> cases s <;> decide

/-- S18E7 sets the range of R79: no codec's bias and mantissa take the exponent further down than 63 + 18, or up past
64. -/
theorem params_exponent_range (c : Codec) :
    c.params.expBias + c.params.manBits ≤ 81 ∧ 2 ^ c.params.expBits ≤ c.params.expBias + 65 := by
  cases c <;> decide

/-- The biased exponent of a decoded non-zero channel (R79). -/
theorem ieeeExponent_range {c : Codec} {e m : Nat} (p : Precision) (he : e < 2 ^ c.params.expBits) (hm : m ≠ 0)
    (hlt : m < 2 ^ c.params.manBits) :
    (p.expBias : Int) - 81 ≤ ieeeExponent p m (denomExp c.params e) ∧
      ieeeExponent p m (denomExp c.params e) ≤ p.expBias + 63 := by
  obtain ⟨hlow, hhigh⟩ := params_exponent_range c
  have hlog : Nat.log2 m < c.params.manBits := (Nat.log2_lt hm).mpr hlt
  unfold ieeeExponent denomExp
  omega

/-- The pattern of fields that fit their codec is a zero, or a normal value in R79's range. -/
theorem decodedChannel_range {c : Codec} {f : Fields} {m : Nat} (p : Precision) (s : Bool)
    (he : f.e < 2 ^ c.params.expBits) (hlt : m < 2 ^ c.params.manBits) :
    decodedChannel c p f s m < 2 ^ p.width ∧
      (IsZero p (decodedChannel c p f s m) ∨
        p.expBias - 81 ≤ expOf p (decodedChannel c p f s m) ∧ expOf p (decodedChannel c p f s m) ≤ p.expBias + 63) := by
  have hbias : 81 ≤ p.expBias ∧ p.expBias + 63 < 2 ^ p.expFieldBits := by cases p <;> decide
  have hrange (hm : m ≠ 0) := ieeeExponent_range p he hm hlt
  have hexp (hm : m ≠ 0) : (ieeeExponent p m (denomExp c.params f.e)).toNat < 2 ^ p.expFieldBits := by
    have := hrange hm
    zify at hbias ⊢
    omega
  refine ⟨toIeee_lt s hexp, ?_⟩
  by_cases hm : m = 0
  · subst hm
    exact .inl (isZero_toIeee_zero p s _)
  · have := hrange hm
    rw [decodedChannel, expOf_toIeee s hm (hexp hm)]
    omega

/-- Every decoded port holds a zero or a normal pattern in R79's range, with nothing above it. -/
theorem decodeOutputs_port_decoded (c : Codec) (p : Precision) (i : Inputs) (l : Lane) :
    DecodedPort p (p.expBias - 81) (p.expBias + 63) ((decodeOutputs c p i).port l) := by
  have hrange := decodedChannel_range p ((decodedFields c i).sgn l) (decodedFields_e_lt c i) (decodedFields_man_lt c i l)
  have hwidth : 2 ^ p.width ≤ 2 ^ 64 := by cases p <;> decide
  rwa [DecodedPort, decodeOutputs_port, BitVec.toNat_ofNat, Nat.mod_eq_of_lt (hrange.1.trans_le hwidth)]

end Sys2Proof.Machine
end

section
/-! PROOFS. What each operation's outputs depend on and leave 0 (10_state.md R17 to R20). -/

namespace Sys2Proof.Machine

/-- An encode drives no channel. -/
theorem encodeOutputs_noChannels (c : Codec) (p : Precision) (i : Inputs) : (encodeOutputs c p i).NoChannels :=
  ⟨rfl, rfl, rfl⟩

/-- A decode drives no word. -/
theorem decodeOutputs_noWords (c : Codec) (p : Precision) (i : Inputs) : (decodeOutputs c p i).NoWords :=
  ⟨rfl, rfl⟩

/-- OUT_B of an encode holds nothing above the format's bits. -/
theorem encodeOutputs_outB_lt (c : Codec) (p : Precision) (i : Inputs) :
    (encodeOutputs c p i).outB.toNat < 2 ^ c.layout.bitsB := by
  calc (encodeOutputs c p i).outB.toNat
      = packWord c.layout (encodedFields c p i) .B % 2 ^ 32 := BitVec.toNat_ofNat _ _
    _ ≤ packWord c.layout (encodedFields c p i) .B := Nat.mod_le _ _
    _ < 2 ^ c.layout.bitsB := packWord_lt (layout_slotsInside c) _ .B

/-- A channel pattern is the port's bits below the precision's width (R17). -/
theorem channelBits_eq_mod (p : Precision) (w : ChannelWord) : channelBits p w = w.toNat % 2 ^ p.width := by
  rw [channelBits, bf_eq_div_mod, Nat.pow_zero, Nat.div_one]

/-- An encode reads the pattern bits of the channel ports alone (R17). -/
theorem encodeOutputs_congr {p : Precision} {i j : Inputs} (c : Codec)
    (h : ∀ l : Lane, (i.port l).toNat % 2 ^ p.width = (j.port l).toNat % 2 ^ p.width) :
    encodeOutputs c p i = encodeOutputs c p j := by
  have hbits (l : Lane) : channelBits p (i.port l) = channelBits p (j.port l) := by
    rw [channelBits_eq_mod, channelBits_eq_mod, h l]
  have hx : channelBits p i.inX = channelBits p j.inX := hbits .x
  have hy : channelBits p i.inY = channelBits p j.inY := hbits .y
  have hz : channelBits p i.inZ = channelBits p j.inZ := hbits .z
  simp only [encodeOutputs, encodedFields, hx, hy, hz]

/-- A decode reads IN_A and the format's bits of IN_B alone (R18). -/
theorem decodeOutputs_congr {c : Codec} {i j : Inputs} (p : Precision) (hA : i.inA = j.inA)
    (hB : i.inB.toNat % 2 ^ c.layout.bitsB = j.inB.toNat % 2 ^ c.layout.bitsB) :
    decodeOutputs c p i = decodeOutputs c p j := by
  have hfields : decodedFields c i = decodedFields c j := by
    rw [decodedFields, decodedFields, ← unpack_mod_bitsB (layout_slotsInside c), hA, hB,
      unpack_mod_bitsB (layout_slotsInside c)]
  simp only [decodeOutputs, hfields]

theorem encodeOutputs_wellFormed (c : Codec) (p : Precision) (i : Inputs) : (encodeOutputs c p i).WellFormed :=
  .inr (.inl ⟨wordOutputs_err _ _, encodeOutputs_noChannels c p i⟩)

theorem decodeOutputs_wellFormed (c : Codec) (p : Precision) (i : Inputs) : (decodeOutputs c p i).WellFormed := by
  have hport := decodeOutputs_port_decoded c p i
  cases p with
  | binary32 => exact .inr (.inr (.inl ⟨rfl, decodeOutputs_noWords c _ i, hport .x, hport .y, hport .z⟩))
  | binary64 => exact .inr (.inr (.inr ⟨rfl, decodeOutputs_noWords c _ i, hport .x, hport .y, hport .z⟩))

theorem illegalOutputs_wellFormed : illegalOutputs.WellFormed :=
  .inl ⟨illegalOutputs_err, rfl, rfl, rfl, rfl, rfl⟩

/-- The output record of a transaction has one of the four forms of R19 to R21, whatever its inputs. -/
theorem blockStep_wellFormed (i : Inputs) : (blockStep i).WellFormed := by
  cases hdec : decode i.cmd with
  | error r =>
    rw [blockStep_of_error hdec]
    exact illegalOutputs_wellFormed
  | ok op =>
    rw [blockStep_of_ok hdec]
    cases hdir : op.direction with
    | encode =>
      rw [operationOutputs_of_encode hdir]
      exact encodeOutputs_wellFormed _ _ _
    | decode =>
      rw [operationOutputs_of_decode hdir]
      exact decodeOutputs_wellFormed _ _ _

end Sys2Proof.Machine
end

section
/-! PROOFS. The statements of 10_state.md. -/

namespace Sys2Proof.Machine

/-- Settles O13: the step's outputs are `blockStep` of its inputs, which is well formed for every input record. -/
theorem stepKeepsOutputsWellFormed : Obligations.StepKeepsOutputsWellFormed := fun s =>
  ⟨_, step_eq_next s, blockStep_wellFormed s.ins⟩

/-- Settles O51: an encode reads only pattern bits, and a decode only format bits. -/
theorem ignoredInputsReachNoOutput : Obligations.IgnoredInputsReachNoOutput := by
  intro op s s'
  refine ⟨_, _, exec_eq_next op s, exec_eq_next op s', fun hdir hports => ?_, fun hdir hA hB => ?_⟩
  · simp only [State.settle_outs, operationOutputs_of_encode hdir]
    exact encodeOutputs_congr _ hports
  · simp only [State.settle_outs, operationOutputs_of_decode hdir]
    exact decodeOutputs_congr _ hA hB

/-- Settles O52: the bound on OUT_B is the packer's, the bound on the channels the range of R79. -/
theorem unusedOutputsAreZero : Obligations.UnusedOutputsAreZero := by
  intro op s
  refine ⟨_, exec_eq_next op s, operationOutputs_err op s.ins, fun hdir => ?_, fun hdir => ?_⟩
  · rw [State.settle_outs, operationOutputs_of_encode hdir]
    exact ⟨encodeOutputs_noChannels _ _ _, encodeOutputs_outB_lt _ _ _⟩
  · rw [State.settle_outs, operationOutputs_of_decode hdir]
    exact ⟨decodeOutputs_noWords _ _ _, fun l => (decodeOutputs_port_decoded _ _ _ l).1⟩

/-- Settles O5: both sides drive the outputs of the decoded operation. -/
theorem stepRunsDecodedCommand : Obligations.StepRunsDecodedCommand := by
  intro s op hdec
  rw [step_eq_next, exec_eq_next, blockStep_of_ok hdec]

/-- Settles O7: ERR is `errOf` of the command word. -/
theorem errFollowsLegality : Obligations.ErrFollowsLegality := by
  intro s
  refine ⟨_, step_eq_next s, rfl, fun hillegal => ?_, fun hlegal => ?_⟩
  · rw [State.settle_outs, blockStep_err, errOf, if_neg hillegal]; rfl
  · rw [State.settle_outs, blockStep_err, errOf, if_pos hlegal]; rfl

/-- Settles O8: the command word of an operation decodes to it, and its outputs do not read CMD. -/
theorem stepIsBlockStep : Obligations.StepIsBlockStep := by
  refine ⟨step_eq_next, fun op s => ?_⟩
  have hdec : decode ({ s.ins with cmd := encode op } : Inputs).cmd = .ok op := decode_encode op
  rw [exec_eq_next, blockStep_of_ok hdec, operationOutputs_cmd]
  rfl

/-- Settles O9: driving the inputs leaves nothing of the state that the step reads. -/
theorem transactionsIndependent : Obligations.TransactionsIndependent :=
  ⟨step_drive_eq, fun s t _ j _ => step_drive_eq t s j⟩

/-- Settles O12: the outputs at reset are those of an encode of zeros, the second form. -/
theorem outputsWellFormedAtReset : Obligations.OutputsWellFormedAtReset :=
  .inr (.inl ⟨rfl, rfl, rfl, rfl⟩)

end Sys2Proof.Machine
end

section
/-! PROOFS. The statements of 20_memory.md: a step leaves a settled state, and a settled state answers itself. -/

namespace Sys2Proof.Machine

/-- After a step the outputs are those of the inputs, which the step leaves held. -/
theorem settled_of_step {s t : State} (h : step s = .next t) : t.Settled := by
  rw [step_eq_next] at h
  cases h
  exact State.settle_outs _ _

/-- A step from a settled state drives the outputs it already has. -/
theorem step_of_settled {s : State} (h : s.Settled) : step s = .next s := by
  rw [step_eq_next, ← h]
  rfl

/-- Settles O10: the state a step answers is settled. -/
theorem transactionIdempotent : Obligations.TransactionIdempotent :=
  fun _ _ h => step_of_settled (settled_of_step h)

end Sys2Proof.Machine
end

section
/-! PROOFS. The command word as its four fields: what each field is as a number, that a word is nothing but its fields,
and that an operation's word is the only one that decodes to it (30_encoding.md R39 to R41). -/

namespace Sys2Proof

/-- RSVD is bits [7:5] (R39). -/
theorem commandFields_rsvd_toNat (w : CommandWord) : (commandFields w).rsvd.toNat = w.toNat / 32 := by
  simp only [commandFields, BitVec.extractLsb'_toNat, Nat.shiftRight_eq_div_pow]
  omega

/-- PREC is bit 4 (R39). -/
theorem commandFields_prec_toNat (w : CommandWord) : (commandFields w).prec.toNat = w.toNat / 16 % 2 := by
  simp only [commandFields, BitVec.extractLsb'_toNat, Nat.shiftRight_eq_div_pow]

/-- DIR is bit 3 (R39). -/
theorem commandFields_dir_toNat (w : CommandWord) : (commandFields w).dir.toNat = w.toNat / 8 % 2 := by
  simp only [commandFields, BitVec.extractLsb'_toNat, Nat.shiftRight_eq_div_pow]

/-- CODEC is bits [2:0] (R39). -/
theorem commandFields_codec_toNat (w : CommandWord) : (commandFields w).codec.toNat = w.toNat % 8 := by
  simp only [commandFields, BitVec.extractLsb'_toNat, Nat.shiftRight_eq_div_pow]
  omega

/-- The four fields leave no bit of a command word out. -/
theorem commandFields_injective : Function.Injective commandFields := by
  intro v w h
  have hrsvd := commandFields_rsvd_toNat v
  have hprec := commandFields_prec_toNat v
  have hdir := commandFields_dir_toNat v
  have hcodec := commandFields_codec_toNat v
  rw [h, commandFields_rsvd_toNat] at hrsvd
  rw [h, commandFields_prec_toNat] at hprec
  rw [h, commandFields_dir_toNat] at hdir
  rw [h, commandFields_codec_toNat] at hcodec
  exact BitVec.eq_of_toNat_eq (by omega)

/-- R39's three conditions as arithmetic on the command word. -/
theorem legalCommand_iff_toNat (w : CommandWord) :
    LegalCommand w ↔ w.toNat / 32 = 0 ∧ w.toNat % 8 ≤ 5 ∧ (w.toNat / 16 % 2 = 0 ∨ w.toNat % 8 = 5) := by
  rw [← commandFields_rsvd_toNat, ← commandFields_prec_toNat, ← commandFields_codec_toNat]
  exact and_congr BitVec.toNat_eq (and_congr_right' (or_congr BitVec.toNat_eq BitVec.toNat_eq))

/-- What the decoder answers for a word is told by the group of R42 that the word is in. -/
theorem decode_cases (w : CommandWord) :
    (∃ i, decode w = .ok i ∧ w.toNat / 32 = 0 ∧ w.toNat % 8 ≤ 5 ∧ (w.toNat / 16 % 2 = 0 ∨ w.toNat % 8 = 5)) ∨
    (∃ r, decode w = .error (.reservedBits r) ∧ w.toNat / 32 ≠ 0) ∨
    (∃ k, decode w = .error (.reservedCodec k) ∧ w.toNat / 32 = 0 ∧ 5 < w.toNat % 8) ∨
    (∃ c, decode w = .error (.precisionNotAvailable c) ∧ w.toNat / 32 = 0 ∧ w.toNat / 16 % 2 ≠ 0 ∧ w.toNat % 8 < 5) := by
  cases hdec : decode w with
  | ok i => exact .inl ⟨i, rfl, (legalCommand_iff_toNat w).mp ((decode_ok_iff_legal w).mp ⟨i, hdec⟩)⟩
  | error r =>
    have hillegal : ¬ LegalCommand w := by simp [← decode_ok_iff_legal, hdec]
    rw [legalCommand_iff_toNat] at hillegal
    have hrsvd : (commandFields w).rsvd = 0 ↔ w.toNat / 32 = 0 := by
      rw [← commandFields_rsvd_toNat]; exact BitVec.toNat_eq
    have hcodec := codecOfCode_isSome_iff (commandFields w).codec
    rw [commandFields_codec_toNat] at hcodec
    simp only [decode] at hdec
    split at hdec
    next hr => cases hdec; exact .inr (.inl ⟨_, rfl, mt hrsvd.mpr hr⟩)
    next hr =>
      have hzero := hrsvd.mp (not_not.mp hr)
      split at hdec
      next hc => cases hdec; rw [hc] at hcodec; exact .inr (.inr (.inl ⟨_, rfl, hzero, by simpa using hcodec⟩))
      next c hc =>
        have hle := hcodec.mp (Option.isSome_of_mem hc)
        split at hdec
        next => cases hdec; exact .inr (.inr (.inr ⟨_, rfl, hzero, by omega⟩))
        next => cases hdec

/-- A count over the decoder's answers to all 256 words is a count of numbers below 256. -/
theorem countP_decode {p : Except IllegalReason Instr → Bool} (q : Nat → Prop) [DecidablePred q]
    (h : ∀ w : CommandWord, p (decode w) = true ↔ q w.toNat) :
    ((List.range 256).map (fun n => decode (BitVec.ofNat 8 n))).countP p = (List.range 256).countP (fun n => q n) := by
  rw [List.countP_map]
  refine List.countP_congr fun n hn => ?_
  rw [Function.comp_apply, h, BitVec.toNat_ofNat, Nat.mod_eq_of_lt (List.mem_range.mp hn), decide_eq_true_iff]

/-- A codec is named by its own code alone (R16). -/
theorem code_of_codecOfCode {code : BitVec 3} {c : Codec} (h : codecOfCode code = some c) : c.code = code := by
  decide +revert

theorem code_directionOfCode (code : BitVec 1) : (directionOfCode code).code = code := by
  decide +revert

theorem code_precisionOfCode (code : BitVec 1) : (precisionOfCode code).code = code := by
  decide +revert

/-- The row of R41 that a codec, a direction and a precision name has these three in its columns. -/
theorem columns_of_operationOf {c : Codec} {d : Direction} {p : Precision} {i : Instr}
    (h : operationOf c d p = some i) : i.codec = c ∧ i.direction = d ∧ i.precision = p := by
  cases c <;> cases d <;> cases p <;> cases h <;> exact ⟨rfl, rfl, rfl⟩

/-- A word that decodes to an operation holds the operation's fields (R40). -/
theorem commandFields_of_decode {w : CommandWord} {i : Instr} (h : decode w = .ok i) : commandFields w = i.fields := by
  obtain ⟨hrsvd, c, hcodec, hop⟩ := (decode_eq_ok_iff w i).mp h
  obtain ⟨rfl, hdir, hprec⟩ := columns_of_operationOf hop
  simp only [Instr.fields, hdir, hprec, code_of_codecOfCode hcodec, code_directionOfCode, code_precisionOfCode, ← hrsvd]

/-- An operation's word is the only one that decodes to it. -/
theorem encode_of_decode {w : CommandWord} {i : Instr} (h : decode w = .ok i) : encode i = w :=
  commandFields_injective <| (commandFields_of_decode (decode_encode i)).trans (commandFields_of_decode h).symm

end Sys2Proof
end

section
/-! PROOFS. The six layout descriptors (30_encoding.md R44 to R51): each is checked once against R51, and against what
the packer and the unpacker need of it. -/

namespace Sys2Proof

/-- Two slices of the same field share no bit of the field (R50). -/
abbrev Layout.SlicesApart (l : Layout) : Prop :=
  ∀ s ∈ l.slots, ∀ t ∈ l.slots, s.field = t.field → s = t ∨ s.low + s.width ≤ t.low ∨ t.low + t.width ≤ s.low

/-- Every format bit of a word belongs to a slot. -/
abbrev Layout.Covers (l : Layout) (w : WordName) : Prop :=
  ∀ i < l.bitsOf w, ∃ s ∈ l.slots, s.word = w ∧ s.offset ≤ i ∧ i < s.offset + s.width

theorem layout_disjoint (c : Codec) : c.layout.Disjoint := by
  cases c <;> decide

theorem layout_full (c : Codec) : c.layout.Full := by
  cases c <;> decide

theorem layout_slicesContiguous (c : Codec) : c.layout.SlicesContiguous := by
  cases c <;> decide

/-- Every descriptor is a layout of its format (R51, R85). -/
theorem layout_wellFormed (c : Codec) : c.layout.WellFormed :=
  ⟨Machine.layout_slotsInside c, layout_disjoint c, layout_full c, layout_slicesContiguous c⟩

theorem layout_slicesApart (c : Codec) : c.layout.SlicesApart := by
  cases c <;> decide

theorem layout_covers (c : Codec) (w : WordName) : c.layout.Covers w := by
  cases c <;> cases w <;> decide

theorem layout_fieldWidth_e (c : Codec) : c.layout.fieldWidth .e = c.params.expBits := by
  cases c <;> rfl

theorem layout_fieldWidth_mantissa (c : Codec) :
    ∀ n ∈ [FieldName.mx, .my, .mz], c.layout.fieldWidth n = c.params.manBits := by
  cases c <;> decide

theorem layout_fieldWidth_sign (c : Codec) :
    ∀ n ∈ [FieldName.sx, .sy, .sz], c.layout.fieldWidth n = if c.signed then 1 else 0 := by
  cases c <;> decide

/-- A sign is one bit wide in a signed codec and has no slot in the unsigned one (R43, R44). -/
theorem layout_sign_width (c : Codec) :
    ∀ s ∈ c.layout.slots, s.field = .sx ∨ s.field = .sy ∨ s.field = .sz →
      s.width + s.low ≤ if c.signed then 1 else 0 := by
  cases c <;> decide

end Sys2Proof
end

section
/-! PROOFS. The packer and the unpacker bit by bit, and packing what was unpacked: a slot copies the same slice of the
word out and back, and the slots of a layout cover its words (41_encode.md R85, 42_decode.md R93, 30_encoding.md R50 to
R52). -/

namespace Sys2Proof.Machine

theorem testBit_foldl_or {α : Type} (v : α → Nat) (xs : List α) (acc i : Nat) :
    (xs.foldl (fun acc x => acc ||| v x) acc).testBit i = true ↔
      acc.testBit i = true ∨ ∃ x ∈ xs, (v x).testBit i = true := by
  induction xs generalizing acc with
  | nil => simp
  | cons x xs ih => simp [ih, or_assoc]

/-- Bit `k` of a bit field is bit `off + k` of the value it is cut from. -/
theorem testBit_bf (v off n k : Nat) : (bf v off n).testBit k = (decide (k < n) && v.testBit (off + k)) := by
  rw [bf_eq_div_mod, Nat.testBit_mod_two_pow, Nat.testBit_div_two_pow, Nat.add_comm k off]

/-- A bit field put at bit `sh`: its bits are those from `sh` up to `sh + n`. -/
theorem testBit_bf_shiftLeft (v off n sh i : Nat) :
    (bf v off n <<< sh).testBit i = true ↔ (sh ≤ i ∧ i < sh + n) ∧ v.testBit (off + (i - sh)) = true := by
  rw [Nat.testBit_shiftLeft, testBit_bf]
  simp only [Bool.and_eq_true, decide_eq_true_eq, ge_iff_le, and_assoc]
  refine and_congr_right fun hle => and_congr_left' ?_
  omega

/-- The word a slot lies in; `testBit_unpackField` ties it to the unpacker. -/
def wordValue (a b : Nat) : WordName → Nat
  | .A => a
  | .B => b

/-- A bit of a packed word is a bit of the field of a slot that holds it (R85). -/
theorem testBit_packWord (l : Layout) (f : Fields) (w : WordName) (i : Nat) :
    (packWord l f w).testBit i = true ↔ ∃ s ∈ l.slots, s.word = w ∧ (s.offset ≤ i ∧ i < s.offset + s.width) ∧
      (f.get s.field).testBit (s.low + (i - s.offset)) = true := by
  simp only [packWord, testBit_foldl_or, slotValue, testBit_bf_shiftLeft, List.mem_filter, decide_eq_true_eq,
    Nat.zero_testBit, Bool.false_eq_true, false_or, and_assoc]

/-- A bit of an unpacked field is a bit of the word of a slot whose slice holds it (R93). -/
theorem testBit_unpackField (l : Layout) (a b : Nat) (n : FieldName) (j : Nat) :
    (unpackField l a b n).testBit j = true ↔ ∃ s ∈ l.slots, s.field = n ∧ (s.low ≤ j ∧ j < s.low + s.width) ∧
      (wordValue a b s.word).testBit (s.offset + (j - s.low)) = true := by
  have hfold : unpackField l a b n = (l.slots.filter (fun s => s.field = n)).foldl
      (fun acc s => acc ||| bf (wordValue a b s.word) s.offset s.width <<< s.low) 0 := rfl
  simp only [hfold, testBit_foldl_or, testBit_bf_shiftLeft, List.mem_filter, decide_eq_true_eq,
    Nat.zero_testBit, Bool.false_eq_true, false_or, and_assoc]

/-- The slice of a field that a slot carries is unpacked from that slot alone. -/
theorem testBit_unpackField_slice {l : Layout} (hl : l.SlicesApart) (a b : Nat) {s : Slot} (hs : s ∈ l.slots) {k : Nat}
    (hk : k < s.width) :
    (unpackField l a b s.field).testBit (s.low + k) = (wordValue a b s.word).testBit (s.offset + k) := by
  rw [Bool.eq_iff_iff, testBit_unpackField]
  constructor
  · rintro ⟨t, ht, hfield, hin, hbit⟩
    have hts : t = s := (hl t ht s hs hfield).resolve_right (by omega)
    subst hts
    rwa [Nat.add_sub_cancel_left] at hbit
  · intro hbit
    exact ⟨s, hs, rfl, by omega, by rwa [Nat.add_sub_cancel_left]⟩

/-- The unpacked signs of every codec are 0 or 1, and 0 in the unsigned one. -/
theorem unpackField_sign_lt (c : Codec) (a b : Nat) {n : FieldName} (hn : n = .sx ∨ n = .sy ∨ n = .sz) :
    unpackField c.layout a b n < 2 ^ (if c.signed then 1 else 0) :=
  unpackField_lt (fun s hs hf => layout_sign_width c s hs (hf ▸ hn)) a b

/-- The unpacked record holds the unpacked fields; a sign loses nothing in becoming a Boolean. -/
theorem get_unpack (c : Codec) (a b : Nat) (n : FieldName) :
    (unpack c.layout a b).get n = unpackField c.layout a b n := by
  have hsign (hn : n = .sx ∨ n = .sy ∨ n = .sz) :
      (unpackField c.layout a b n == 1).toNat = unpackField c.layout a b n := by
    have hlt : unpackField c.layout a b n < 2 ^ 1 :=
      (unpackField_sign_lt c a b hn).trans_le (Nat.pow_le_pow_right Nat.two_pos (by split <;> omega))
    interval_cases unpackField c.layout a b n <;> rfl
  cases n with
  | e | mx | my | mz => rfl
  | sx | sy | sz => exact hsign (by decide)

/-- What is unpacked from any two words fits the codec (R52). -/
theorem unpack_inRange (c : Codec) (a b : Nat) : (unpack c.layout a b).InRange c := by
  have hman {n : FieldName} (hn : n = .mx ∨ n = .my ∨ n = .mz) :
      unpackField c.layout a b n ≤ c.params.maxMantissa :=
    Nat.le_sub_one_of_lt (unpackField_lt (fun s hs hf => layout_mantissa_width c s hs (hf ▸ hn)) a b)
  have hsign {n : FieldName} (hn : n = .sx ∨ n = .sy ∨ n = .sz) (hu : c.signed = false) :
      (unpackField c.layout a b n == 1) = false := by
    have hlt := unpackField_sign_lt c a b hn
    rw [hu] at hlt
    rw [Nat.lt_one_iff.mp hlt]
    rfl
  exact ⟨Nat.le_sub_one_of_lt (unpackField_lt (layout_exponent_width c) a b), hman (by decide), hman (by decide),
    hman (by decide), fun hu => ⟨hsign (by decide) hu, hsign (by decide) hu, hsign (by decide) hu⟩⟩

/-- A word is packed again from the fields unpacked from it: each of its bits lies in a slot, and a slot puts back what
it took. -/
theorem packWord_unpack (c : Codec) {a b : Nat} (w : WordName) (hw : wordValue a b w < 2 ^ c.layout.bitsOf w) :
    packWord c.layout (unpack c.layout a b) w = wordValue a b w := by
  have hslot {s : Slot} (hs : s ∈ c.layout.slots) {i : Nat} (hin : s.offset ≤ i ∧ i < s.offset + s.width) :
      ((unpack c.layout a b).get s.field).testBit (s.low + (i - s.offset)) = (wordValue a b s.word).testBit i := by
    rw [get_unpack, testBit_unpackField_slice (layout_slicesApart c) a b hs (by omega), Nat.add_sub_cancel' hin.1]
  refine Nat.eq_of_testBit_eq fun i => ?_
  rw [Bool.eq_iff_iff, testBit_packWord]
  constructor
  · rintro ⟨s, hs, rfl, hin, hbit⟩
    rwa [hslot hs hin] at hbit
  · intro hbit
    have hi : i < c.layout.bitsOf w := by
      by_contra hout
      rw [Nat.testBit_lt_two_pow (hw.trans_le (Nat.pow_le_pow_right Nat.two_pos (not_lt.mp hout)))] at hbit
      cases hbit
    obtain ⟨s, hs, rfl, hin⟩ := layout_covers c w i hi
    exact ⟨s, hs, rfl, hin, (hslot hs hin).trans hbit⟩

end Sys2Proof.Machine
end

section
/-! PROOFS. The statements of 30_encoding.md. -/

namespace Sys2Proof.Machine

/-- Settles O42: any words unpack to fields in range, and each word is packed again from its slots. -/
theorem packUnpack : Obligations.PackUnpack := fun c a b ha hb =>
  ⟨unpack_inRange c a b, Prod.ext (packWord_unpack c .A ha) (packWord_unpack c .B hb)⟩

/-- Settles O1: the six words are those of the encoder's table. -/
theorem commandWordsDecode : Obligations.CommandWordsDecode :=
  ⟨decode_encode .encU9E5, decode_encode .encUR14E3, decode_encode .encS18E7F64, decode_encode .decS8E5,
    decode_encode .decS13E6, decode_encode .decS18E7F64⟩

/-- Settles O2: the fields of a word that decodes are the operation's, and a word is its fields. -/
theorem commandEncodingsRoundTrip : Obligations.CommandEncodingsRoundTrip :=
  ⟨fun i _ => decode_encode i, fun _ _ => encode_of_decode⟩

/-- Settles O3: the fields of R39 read as quotients and remainders, and the decoder's tests are R39's conditions. -/
theorem legalCommandIffDecodes : Obligations.LegalCommandIffDecodes :=
  fun w => ⟨legalCommand_iff_toNat w, (decode_ok_iff_legal w).symm⟩

/-- Settles O4: the decoder's answer is told by the group of R42 a word is in, and the groups are counted as numbers. -/
theorem illegalCommandGroups : Obligations.IllegalCommandGroups := by
  refine ⟨(countP_decode (fun n => n / 32 = 0 ∧ n % 8 ≤ 5 ∧ (n / 16 % 2 = 0 ∨ n % 8 = 5)) fun w => ?_).trans ?_,
    (countP_decode (fun n => n / 32 ≠ 0) fun w => ?_).trans ?_,
    (countP_decode (fun n => n / 32 = 0 ∧ 5 < n % 8) fun w => ?_).trans ?_,
    (countP_decode (fun n => n / 32 = 0 ∧ n / 16 % 2 ≠ 0 ∧ n % 8 < 5) fun w => ?_).trans ?_⟩
  case refine_1 | refine_3 | refine_5 | refine_7 =>
    rcases decode_cases w with ⟨_, hdec, hw⟩ | ⟨_, hdec, hw⟩ | ⟨_, hdec, hw⟩ | ⟨_, hdec, hw⟩ <;>
      simp only [hdec, true_iff, reduceCtorEq, false_iff] <;> omega
  all_goals decide +kernel

/-- Settles O40: the layout checks, with the word sizes read off the descriptors. -/
theorem layoutsFillFormats : Obligations.LayoutsFillFormats := by
  intro c
  refine ⟨layout_wellFormed c, layout_fieldWidth_e c, layout_fieldWidth_mantissa c, layout_fieldWidth_sign c, ?_⟩
  cases c <;> exact ⟨rfl, rfl, rfl⟩

end Sys2Proof.Machine
end

section
/-! PROOFS. The derived constants of a parameter pair, the denominators of its exponents, and the six codecs' constants
(40_numeric_engine.md R56 to R59, R68). -/

namespace Sys2Proof

open Machine

theorem FormatParams.maxMantissa_add_one (f : FormatParams) : f.maxMantissa + 1 = f.mantissaValues :=
  Nat.sub_add_cancel Nat.one_le_two_pow

theorem FormatParams.maxMantissa_cast (f : FormatParams) : (f.maxMantissa : ℚ) = f.mantissaValues - 1 := by
  rw [← f.maxMantissa_add_one]; push_cast; ring

theorem FormatParams.mantissaValues_cast (f : FormatParams) : (f.mantissaValues : ℚ) = 2 ^ f.manBits := by
  simp [mantissaValues]

theorem FormatParams.one_le_mantissaValues (f : FormatParams) : (1 : ℚ) ≤ f.mantissaValues := by
  rw [f.mantissaValues_cast]; exact one_le_pow₀ one_le_two

/-- With at least one mantissa bit there are at least two mantissas. -/
theorem FormatParams.two_le_mantissaValues {f : FormatParams} (hM : 1 ≤ f.manBits) : (2 : ℚ) ≤ f.mantissaValues := by
  rw [f.mantissaValues_cast]; exact le_self_pow₀ one_le_two (by omega)

theorem codec_manBits_pos (c : Codec) : 1 ≤ c.params.manBits := by
  cases c <;> decide

namespace Machine

theorem denomExact_pos (f : FormatParams) (e : ℤ) : 0 < denomExact f e := zpow_pos two_pos _

theorem denomExact_mono (f : FormatParams) : Monotone (denomExact f) := fun _ _ h =>
  zpow_le_zpow_right₀ one_le_two (by omega)

/-- The engine's denominators are given by their exponents. -/
theorem two_zpow_denomExp (f : FormatParams) (e : ℤ) : (2 : ℚ) ^ denomExp f e = denomExact f e := rfl

theorem denomExact_add_one (f : FormatParams) (e : ℤ) : denomExact f (e + 1) = 2 * denomExact f e := by
  rw [denomExact, denomExact, ← zpow_one_add₀ two_ne_zero]; congr 1; ring

theorem half_denomExact (f : FormatParams) (e : ℤ) : denomExact f e / 2 = 2 ^ (e - f.expBias - f.manBits - 1) := by
  rw [zpow_sub_one₀ two_ne_zero]; rfl

/-- Denominators are powers of two apart. -/
theorem denomExact_eq_mul_pow {f : FormatParams} {e k : ℤ} (h : e ≤ k) :
    denomExact f k = ((2 ^ (k - e).toNat : ℕ) : ℚ) * denomExact f e := by
  rw [denomExact, denomExact, Nat.cast_pow, Nat.cast_ofNat, ← zpow_natCast, ← zpow_add₀ two_ne_zero,
    Int.toNat_of_nonneg (by omega)]
  congr 1; ring

/-- All mantissas together span `2^(e - exp_bias)` (R69). -/
theorem mantissaValues_mul_denomExact (f : FormatParams) (e : ℤ) :
    (f.mantissaValues : ℚ) * denomExact f e = 2 ^ (e - f.expBias) := by
  rw [f.mantissaValues_cast, denomExact, ← zpow_natCast, ← zpow_add₀ two_ne_zero]; congr 1; ring

end Machine

theorem FormatParams.maxExp_cast (f : FormatParams) : (f.maxExp : ℤ) = f.maxValidBiasedExp - f.expBias := by
  have : f.expBias ≤ f.maxValidBiasedExp := Nat.div_le_self _ _
  rw [maxExp]; omega

/-- GMAX is the largest mantissa at the largest exponent (R57). -/
theorem FormatParams.gmax_eq (f : FormatParams) : f.gmax = f.maxMantissa * denomExact f f.maxValidBiasedExp := by
  rw [gmax, div_mul_eq_mul_div, mul_div_assoc, mantissaValues_cast, ← zpow_natCast, ← zpow_natCast, maxExp_cast,
    ← zpow_sub₀ two_ne_zero]
  rfl

/-- `exp_bias` in closed form: `2^E - 1` is odd (R57). -/
theorem FormatParams.expBias_eq {f : FormatParams} (hE : 1 ≤ f.expBits) : f.expBias = 2 ^ (f.expBits - 1) - 1 := by
  have htwo : 2 ^ f.expBits = 2 ^ (f.expBits - 1) * 2 := by rw [← Nat.pow_succ]; congr 1; omega
  rw [expBias, maxValidBiasedExp]; omega

theorem FormatParams.maxExp_eq {f : FormatParams} (hE : 1 ≤ f.expBits) : f.maxExp = 2 ^ (f.expBits - 1) := by
  have htwo : 2 ^ f.expBits = 2 ^ (f.expBits - 1) * 2 := by rw [← Nat.pow_succ]; congr 1; omega
  have hpos : 0 < 2 ^ (f.expBits - 1) := Nat.two_pow_pos _
  rw [maxExp, expBias_eq hE, maxValidBiasedExp]; omega

/-- Epsilon is the denominator at exponent 0 (R57). -/
theorem FormatParams.epsilon_eq (f : FormatParams) : f.epsilon = denomExact f 0 := by
  rw [epsilon, mantissaValues_cast, denomExact, one_div, div_eq_mul_inv, ← zpow_natCast, ← zpow_natCast, ← zpow_neg,
    ← zpow_neg, ← zpow_add₀ two_ne_zero]
  congr 1; ring

namespace Machine

/-- A decoded magnitude is at most GMAX (R57). -/
theorem mul_denomExact_le_gmax {f : FormatParams} {e m : Nat} (he : e ≤ f.maxValidBiasedExp) (hm : m ≤ f.maxMantissa) :
    m * denomExact f e ≤ f.gmax := by
  rw [f.gmax_eq]
  exact mul_le_mul (mod_cast hm) (denomExact_mono f (mod_cast he)) (denomExact_pos f _).le (Nat.cast_nonneg _)

end Machine

/-- The widths and biases of R58's table. -/
theorem codec_integerConstants (c : Codec) :
    (c.signed, c.params.maxValidBiasedExp, c.params.expBias, c.params.mantissaValues, c.params.maxMantissa,
      c.params.maxExp) = (match c with
      | .u9e5 => (false, 31, 15, 512, 511, 16)
      | .s8e5 => (true, 31, 15, 256, 255, 16)
      | .ur9e2 => (true, 3, 1, 512, 511, 2)
      | .s13e6 => (true, 63, 31, 8192, 8191, 32)
      | .ur14e3 => (true, 7, 3, 16384, 16383, 4)
      | .s18e7 => (true, 127, 63, 262144, 262143, 64)) := by
  cases c <;> rfl

/-- Epsilon of R58's table: the denominator at exponent 0. -/
theorem codec_epsilon (c : Codec) : c.params.epsilon = (match c with
    | .u9e5 => 1 / 2 ^ 24 | .s8e5 => 1 / 2 ^ 23 | .ur9e2 => 1 / 2 ^ 10 | .s13e6 => 1 / 2 ^ 44 | .ur14e3 => 1 / 2 ^ 17
    | .s18e7 => 1 / 2 ^ 81) := by
  rw [FormatParams.epsilon_eq, denomExact]
  cases c <;> norm_num [FormatParams.expBias, FormatParams.maxValidBiasedExp, Codec.params]

/-- GMAX of R58's table: the largest mantissa at the largest exponent. -/
theorem codec_gmax (c : Codec) : c.params.gmax = (match c with
    | .u9e5 => 65408 | .s8e5 => 65280 | .ur9e2 => 511 / 128 | .s13e6 => 8191 * 2 ^ 19 | .ur14e3 => 16383 / 1024
    | .s18e7 => 262143 * 2 ^ 46) := by
  rw [FormatParams.gmax_eq, denomExact]
  cases c <;> norm_num [FormatParams.maxMantissa, FormatParams.mantissaValues, FormatParams.expBias,
    FormatParams.maxValidBiasedExp, Codec.params]

/-- K is GMAX but for the two codecs with normalisation (R58). -/
theorem clampConstant_eq_gmax_iff (c : Codec) : (c.clampConstant : ℚ) = c.params.gmax ↔ c ≠ .ur9e2 ∧ c ≠ .ur14e3 := by
  rw [codec_gmax]
  cases c with
  | u9e5 | s8e5 | s13e6 | s18e7 => exact iff_of_true (by norm_num [Codec.clampConstant]) (by decide)
  | ur9e2 | ur14e3 => exact iff_of_false (by norm_num [Codec.clampConstant]) (by decide)

/-- K as a binary32 pattern (R58). -/
theorem classify_clampConstant_binary32 (c : Codec) :
    classify .binary32 (match c with
      | .u9e5 => 0x477F8000 | .s8e5 => 0x477F0000 | .ur9e2 => 0x3F800000
      | .s13e6 => 0x4F7FF800 | .ur14e3 => 0x41800000 | .s18e7 => 0x5F7FFFC0) =
        { cls := .fin, sign := false, mag := c.clampUnits .binary32 } := by
  cases c <;> decide

/-- K as a binary64 pattern: K is exactly representable there (R58). -/
theorem classify_clampConstant_binary64 (c : Codec) :
    classify .binary64 (match c with
      | .u9e5 => 0x40EFF00000000000 | .s8e5 => 0x40EFE00000000000 | .ur9e2 => 0x3FF0000000000000
      | .s13e6 => 0x41EFFF0000000000 | .ur14e3 => 0x4030000000000000 | .s18e7 => 0x43EFFFF800000000) =
        { cls := .fin, sign := false, mag := c.clampUnits .binary64 } := by
  cases c <;> decide

end Sys2Proof
end

section
/-! PROOFS. RHU: the shift form is the floor of the exact quotient plus a half, and what that floor keeps
(40_numeric_engine.md R74). -/

namespace Sys2Proof.Machine

theorem le_rhuExact_iff {m : ℤ} {q : ℚ} : m ≤ rhuExact q ↔ (m : ℚ) - 1 / 2 ≤ q := by
  rw [rhuExact, Int.le_floor, sub_le_iff_le_add]

theorem rhuExact_lt_iff {m : ℤ} {q : ℚ} : rhuExact q < m ↔ q < (m : ℚ) - 1 / 2 := by
  rw [← not_le, le_rhuExact_iff, not_le]

theorem rhuExact_mono : Monotone rhuExact := fun _ _ h => Int.floor_le_floor (by linarith)

@[simp] theorem rhuExact_natCast (n : ℕ) : rhuExact n = n := by
  rw [rhuExact, Int.floor_eq_iff]; constructor <;> push_cast <;> linarith

theorem abs_rhuExact_sub_le (q : ℚ) : |(rhuExact q : ℚ) - q| ≤ 1 / 2 := by
  have hle := Int.floor_le (q + 1 / 2)
  have hlt := Int.lt_floor_add_one (q + 1 / 2)
  rw [abs_le, rhuExact]; constructor <;> linarith

/-- RHU with a shift is the floor of `q + 1/2`: where the shift is to the left the quotient is whole, and where it is to
the right half a unit is added before the truncation. -/
theorem rhu_eq_floor (sig : Nat) (k s : ℤ) : (rhu sig k s : ℤ) = ⌊(sig : ℚ) * 2 ^ k / 2 ^ s + 1 / 2⌋ := by
  rcases le_or_gt s k with h | h
  · obtain ⟨r, rfl⟩ := Int.le.dest h
    have hq : (sig : ℚ) * 2 ^ (s + (r : ℤ)) / 2 ^ s = (sig * 2 ^ r : ℕ) := by
      rw [mul_div_assoc, ← zpow_sub₀ two_ne_zero, add_sub_cancel_left]; push_cast; rfl
    rw [rhu_of_nonpos, hq]
    exact (rhuExact_natCast _).symm
  · obtain ⟨r, hr⟩ := Int.lt.dest h
    obtain rfl : s = k + (r + 1 : ℕ) := hr.symm
    have hq : (sig : ℚ) * 2 ^ k / 2 ^ (k + (r + 1 : ℕ) : ℤ) + 1 / 2 = ((sig + 2 ^ r : ℕ) : ℚ) / (2 ^ (r + 1) : ℕ) := by
      rw [zpow_add₀ two_ne_zero, zpow_natCast, mul_comm (sig : ℚ), mul_div_mul_left _ _ (zpow_ne_zero k two_ne_zero)]
      push_cast
      field_simp
      ring
    rw [rhu_of_pos _ _ _ r.succ_pos, hq, Rat.floor_natCast_div_natCast]
    rfl

/-- RHU of a magnitude, on its rational value. -/
theorem rhu_eq_rhuExact (p : Precision) (n : Nat) (d : ℤ) :
    (rhu n p.unitExp d : ℤ) = rhuExact (magValue p n / 2 ^ d) :=
  rhu_eq_floor n p.unitExp d

end Sys2Proof.Machine
end

section
/-! PROOFS. The shared exponent selector on rationals: where its first exponent lies, and the one inequality that says
what it selects (40_numeric_engine.md R65 to R73). -/

namespace Sys2Proof.Machine

/-- FloorLog2 of a positive magnitude bounds it by two powers of two (R66). -/
theorem floorLog2_bounds (p : Precision) {n : Nat} (hn : 0 < n) :
    (2 : ℚ) ^ floorLog2 p n ≤ magValue p n ∧ magValue p n < 2 ^ (floorLog2 p n + 1) := by
  have hunit : (0 : ℚ) < 2 ^ p.unitExp := zpow_pos two_pos _
  have hle : 2 ^ Nat.log2 n ≤ n := Nat.log2_self_le hn.ne'
  have hlt : n < 2 ^ (Nat.log2 n + 1) := Nat.lt_log2_self
  constructor
  · rw [floorLog2, zpow_add₀ two_ne_zero, zpow_natCast, magValue]
    exact mul_le_mul_of_nonneg_right (mod_cast hle) hunit.le
  · rw [floorLog2, add_right_comm, zpow_add₀ two_ne_zero, ← Nat.cast_succ, zpow_natCast, magValue]
    exact mul_lt_mul_of_pos_right (mod_cast hlt) hunit

theorem magValue_pos (p : Precision) {n : Nat} (hn : 0 < n) : 0 < magValue p n :=
  mul_pos (Nat.cast_pos.mpr hn) (zpow_pos two_pos _)

theorem floorLog2_eq_log (p : Precision) {n : Nat} (hn : 0 < n) : Int.log 2 (magValue p n) = floorLog2 p n := by
  obtain ⟨hle, hlt⟩ := floorLog2_bounds p hn
  apply le_antisymm
  · exact Int.lt_add_one_iff.mp ((Int.lt_zpow_iff_log_lt one_lt_two (magValue_pos p hn)).mp (mod_cast hlt))
  · exact (Int.zpow_le_iff_le_log one_lt_two (magValue_pos p hn)).mp (mod_cast hle)

theorem startExp_zero (f : FormatParams) (p : Precision) : startExp f p 0 = 0 := by
  simp [startExp]

theorem startExp_of_pos (f : FormatParams) (p : Precision) {n : Nat} (hn : 0 < n) :
    startExp f p n = max (-(f.expBias : ℤ) - 1) (floorLog2 p n) + 1 + f.expBias := by
  simp [startExp, hn.ne']

theorem startExp_nonneg (f : FormatParams) (p : Precision) (n : Nat) : 0 ≤ startExp f p n := by
  rcases n.eq_zero_or_pos with rfl | hn
  · rw [startExp_zero]
  · rw [startExp_of_pos f p hn]; omega

theorem startExp_eq_exact (f : FormatParams) (p : Precision) (n : Nat) :
    startExp f p n = startExpExact f (magValue p n) := by
  rcases n.eq_zero_or_pos with rfl | hn
  · simp [startExp, startExpExact]
  · rw [startExp_of_pos f p hn, startExpExact, if_neg (magValue_pos p hn).ne', floorLog2_eq_log p hn]

/-- A magnitude lies below the span of its first exponent (R69). -/
theorem magValue_lt_startExp (f : FormatParams) (p : Precision) (n : Nat) :
    magValue p n < 2 ^ (startExp f p n - f.expBias) := by
  rcases n.eq_zero_or_pos with rfl | hn
  · rw [magValue_zero]; exact zpow_pos two_pos _
  · refine (floorLog2_bounds p hn).2.trans_le (zpow_le_zpow_right₀ one_le_two ?_)
    rw [startExp_of_pos f p hn]; omega

/-- Where the first exponent is not 0, the magnitude reaches the upper half of its span. -/
theorem startExp_le_magValue {f : FormatParams} {p : Precision} {n : Nat} (h : 0 < startExp f p n) :
    (2 : ℚ) ^ (startExp f p n - 1 - f.expBias) ≤ magValue p n := by
  rcases n.eq_zero_or_pos with rfl | hn
  · rw [startExp_zero] at h; exact absurd h (lt_irrefl 0)
  · refine (zpow_le_zpow_right₀ one_le_two ?_).trans (floorLog2_bounds p hn).1
    rw [startExp_of_pos f p hn] at h ⊢; omega

theorem startMantissa_eq_exact (f : FormatParams) (p : Precision) (n : Nat) :
    (startMantissa f p n : ℤ) = rhuExact (magValue p n / denomExact f (startExp f p n)) :=
  rhu_eq_rhuExact p n _

/-- The bound of R69: a magnitude rounds to at most `mantissa_values` at its first exponent. -/
theorem startMantissa_le (f : FormatParams) (p : Precision) (n : Nat) : startMantissa f p n ≤ f.mantissaValues := by
  have hlt := magValue_lt_startExp f p n
  rw [← mantissaValues_mul_denomExact, ← div_lt_iff₀ (denomExact_pos f _)] at hlt
  rw [← Nat.cast_le (α := ℤ), startMantissa_eq_exact, ← Int.lt_add_one_iff, rhuExact_lt_iff]
  push_cast
  linarith

/-- The least magnitude that rounds to `mantissa_values` at exponent `e`: the tie of R70. -/
def carryBound (f : FormatParams) (e : ℤ) : ℚ := ((f.mantissaValues : ℚ) - 1 / 2) * denomExact f e

theorem carryBound_mono (f : FormatParams) : Monotone (carryBound f) := fun _ _ h =>
  mul_le_mul_of_nonneg_left (denomExact_mono f h) (by linarith [f.one_le_mantissaValues])

/-- Below the top exponent the tie is at most GMAX. -/
theorem carryBound_le_gmax {f : FormatParams} (hM : 1 ≤ f.manBits) {e : ℤ} (he : e < f.maxValidBiasedExp) :
    carryBound f e ≤ f.gmax := by
  have hd := denomExact_pos f e
  have htwo := f.two_le_mantissaValues hM
  calc carryBound f e
      ≤ (f.maxMantissa : ℚ) * (2 * denomExact f e) := by rw [carryBound, f.maxMantissa_cast]; nlinarith
    _ = f.maxMantissa * denomExact f (e + 1) := by rw [denomExact_add_one]
    _ ≤ f.maxMantissa * denomExact f f.maxValidBiasedExp :=
        mul_le_mul_of_nonneg_left (denomExact_mono f (Int.add_one_le_of_lt he)) (Nat.cast_nonneg _)
    _ = f.gmax := f.gmax_eq.symm

/-- GMAX lies below the tie of the top exponent. -/
theorem gmax_lt_carryBound (f : FormatParams) : f.gmax < carryBound f f.maxValidBiasedExp := by
  rw [f.gmax_eq, carryBound, f.maxMantissa_cast]
  exact mul_lt_mul_of_pos_right (by linarith) (denomExact_pos f _)

/-- RHU reaches `mantissa_values` at exponent `e` from the tie up. -/
theorem mantissaValues_le_rhuExact_iff {f : FormatParams} {e : ℤ} {v : ℚ} :
    (f.mantissaValues : ℤ) ≤ rhuExact (v / denomExact f e) ↔ carryBound f e ≤ v := by
  rw [le_rhuExact_iff, le_div_iff₀ (denomExact_pos f e), carryBound, Int.cast_natCast]

theorem rhuExact_le_maxMantissa_iff {f : FormatParams} {e : ℤ} {v : ℚ} :
    rhuExact (v / denomExact f e) ≤ f.maxMantissa ↔ v < carryBound f e := by
  rw [← not_le, ← mantissaValues_le_rhuExact_iff, not_le, ← f.maxMantissa_add_one]
  push_cast
  exact Int.lt_add_one_iff.symm

theorem startMantissa_eq_iff (f : FormatParams) (p : Precision) (n : Nat) :
    startMantissa f p n = f.mantissaValues ↔ carryBound f (startExp f p n) ≤ magValue p n := by
  rw [← mantissaValues_le_rhuExact_iff, ← startMantissa_eq_exact, Nat.cast_le]
  exact ⟨fun h => h.ge, (startMantissa_le f p n).antisymm⟩

theorem carriedExp_of_carry {f : FormatParams} {p : Precision} {n : Nat} (h : startMantissa f p n = f.mantissaValues) :
    carriedExp f p n = startExp f p n + 1 := if_pos h

theorem carriedExp_of_no_carry {f : FormatParams} {p : Precision} {n : Nat}
    (h : startMantissa f p n ≠ f.mantissaValues) : carriedExp f p n = startExp f p n := if_neg h

theorem startExp_le_carriedExp (f : FormatParams) (p : Precision) (n : Nat) :
    startExp f p n ≤ carriedExp f p n ∧ carriedExp f p n ≤ startExp f p n + 1 := by
  unfold carriedExp; split <;> omega

/-- Steps 1 to 4 in one inequality: `e1` is the least exponent from 0 up at which the magnitude lies below the tie. -/
theorem carriedExp_le_iff {f : FormatParams} {p : Precision} {n : Nat} {k : ℤ} (hk : 0 ≤ k) :
    carriedExp f p n ≤ k ↔ magValue p n < carryBound f k := by
  obtain ⟨hlow, hhigh⟩ := startExp_le_carriedExp f p n
  have hone := f.one_le_mantissaValues
  rcases lt_trichotomy k (startExp f p n) with h | h | h
  · have hv := startExp_le_magValue (f := f) (p := p) (n := n) (by omega)
    have hd := denomExact_pos f k
    refine iff_of_false (by omega) (not_lt.mpr ?_)
    calc carryBound f k
        ≤ f.mantissaValues * denomExact f k := mul_le_mul_of_nonneg_right (by linarith) hd.le
      _ = 2 ^ (k - f.expBias) := mantissaValues_mul_denomExact f k
      _ ≤ 2 ^ (startExp f p n - 1 - f.expBias) := zpow_le_zpow_right₀ one_le_two (by omega)
      _ ≤ magValue p n := hv
  · subst h
    rw [← not_le (b := magValue p n), ← startMantissa_eq_iff, carriedExp]
    split <;> simp_all
  · refine iff_of_true (by omega) ?_
    have hd := denomExact_pos f (startExp f p n)
    calc magValue p n
        < 2 ^ (startExp f p n - f.expBias) := magValue_lt_startExp f p n
      _ = f.mantissaValues * denomExact f (startExp f p n) := (mantissaValues_mul_denomExact f _).symm
      _ ≤ ((f.mantissaValues : ℚ) - 1 / 2) * (2 * denomExact f (startExp f p n)) := by nlinarith
      _ = carryBound f (startExp f p n + 1) := by rw [carryBound, denomExact_add_one]
      _ ≤ carryBound f k := carryBound_mono f h

theorem sharedExp_nonneg (f : FormatParams) (p : Precision) (n : Nat) : 0 ≤ sharedExp f p n :=
  le_min ((startExp_nonneg f p n).trans (startExp_le_carriedExp f p n).1) (Int.natCast_nonneg _)

theorem sharedExp_eq_exact (f : FormatParams) (p : Precision) (n : Nat) :
    sharedExp f p n = sharedExpExact f (magValue p n) := by
  simp only [sharedExp, sharedExpExact, carriedExp, ← startExp_eq_exact, ← startMantissa_eq_exact, Nat.cast_inj]

/-- The exponent field loses nothing of the selected exponent, which is not negative. -/
theorem selectExponent_e_cast (f : FormatParams) (p : Precision) (n : Nat) :
    ((selectExponent f p n).e : ℤ) = sharedExp f p n :=
  Int.toNat_of_nonneg (sharedExp_nonneg f p n)

/-- The denominator is that of the exponent field (R72). -/
theorem selectExponent_denomExp (f : FormatParams) (p : Precision) (n : Nat) :
    (selectExponent f p n).denomExp = denomExp f (selectExponent f p n).e := by
  rw [selectExponent_e_cast]; rfl

theorem selectExponent_e_le (f : FormatParams) (p : Precision) (n : Nat) :
    (selectExponent f p n).e ≤ f.maxValidBiasedExp := by
  have : sharedExp f p n ≤ f.maxValidBiasedExp := min_le_right _ _
  rwa [← selectExponent_e_cast, Nat.cast_le] at this

/-- The selected exponent is the least in range at which the magnitude lies below the tie. -/
theorem selectExponent_e_le_iff {f : FormatParams} {p : Precision} {n k : Nat} (hk : k < f.maxValidBiasedExp) :
    (selectExponent f p n).e ≤ k ↔ magValue p n < carryBound f k := by
  rw [← Nat.cast_le (α := ℤ), selectExponent_e_cast, ← carriedExp_le_iff (Int.natCast_nonneg k), sharedExp, min_le_iff,
    Nat.cast_le]
  exact or_iff_left (by omega)

/-- Where the saturation does not bind, the magnitude lies below the tie at the selected exponent. -/
theorem magValue_lt_carryBound {f : FormatParams} {p : Precision} {n : Nat}
    (h : carriedExp f p n ≤ f.maxValidBiasedExp) : magValue p n < carryBound f (selectExponent f p n).e := by
  rw [← carriedExp_le_iff (Int.natCast_nonneg _), selectExponent_e_cast, sharedExp, min_eq_left h]

end Sys2Proof.Machine
end

section
/-! PROOFS. The quantizer on rationals: the limit is a clamp of the channel, and what is left of a magnitude at the
selected exponent (40_numeric_engine.md R75, R76). -/

namespace Sys2Proof.Machine

theorem quantize_eq_exact (f : FormatParams) (p : Precision) (c : Nat) (d : ℤ) :
    (quantize f p c d : ℤ) = quantizeExact f (magValue p c) (2 ^ d) := by
  rw [quantize, Nat.cast_min, rhu_eq_rhuExact]; rfl

theorem quantize_le (f : FormatParams) (p : Precision) (c : Nat) (d : ℤ) : quantize f p c d ≤ f.maxMantissa :=
  min_le_right _ _

/-- Below the tie of the selected exponent, RHU stays within the mantissas. -/
theorem rhu_le_maxMantissa {f : FormatParams} {p : Precision} {c : Nat} {e : ℤ} (h : magValue p c < carryBound f e) :
    rhu c p.unitExp (denomExp f e) ≤ f.maxMantissa := by
  rw [← Nat.cast_le (α := ℤ), rhu_eq_rhuExact]
  exact rhuExact_le_maxMantissa_iff.mpr h

/-- After a carry that does not saturate, the selected denominator is twice the first one (R72). -/
theorem denomExact_selectExponent {f : FormatParams} {p : Precision} {n : Nat}
    (h : carriedExp f p n ≤ f.maxValidBiasedExp) :
    denomExact f (selectExponent f p n).e =
      (if startMantissa f p n = f.mantissaValues then 2 else 1) * denomExact f (startExp f p n) := by
  rw [selectExponent_e_cast, sharedExp, min_eq_left h]
  split
  next hc => rw [carriedExp_of_carry hc, denomExact_add_one]
  next hc => rw [carriedExp_of_no_carry hc, one_mul]

/-- Half of the mantissas is a whole number, and a mantissa of its own. -/
theorem two_mul_half_mantissaValues {f : FormatParams} (hM : 1 ≤ f.manBits) :
    2 * (f.mantissaValues / 2) = f.mantissaValues ∧ f.mantissaValues / 2 ≤ f.maxMantissa := by
  have heven : 2 ∣ f.mantissaValues := dvd_pow_self 2 (by omega)
  have hadd := f.maxMantissa_add_one
  omega

/-- A magnitude that carries rounds to half of the mantissas at the doubled denominator (R76). -/
theorem rhuExact_of_carry {f : FormatParams} {p : Precision} {n : Nat} (hM : 1 ≤ f.manBits)
    (hc : startMantissa f p n = f.mantissaValues) :
    rhuExact (magValue p n / (2 * denomExact f (startExp f p n))) = (f.mantissaValues / 2 : ℕ) := by
  have hd := denomExact_pos f (startExp f p n)
  have hlow := (startMantissa_eq_iff f p n).mp hc
  have hhigh := magValue_lt_startExp f p n
  have htwo : 2 * ((f.mantissaValues / 2 : ℕ) : ℚ) = f.mantissaValues := mod_cast (two_mul_half_mantissaValues hM).1
  rw [← mantissaValues_mul_denomExact] at hhigh
  rw [carryBound] at hlow
  generalize f.mantissaValues / 2 = half at htwo ⊢
  rw [← htwo] at hlow hhigh
  apply le_antisymm
  · rw [← Int.lt_add_one_iff, rhuExact_lt_iff, div_lt_iff₀ (by linarith)]
    push_cast
    nlinarith
  · rw [le_rhuExact_iff, le_div_iff₀ (by linarith)]
    push_cast
    nlinarith

/-- A magnitude of `m` steps of `2^-k`, in units. -/
theorem magValue_shiftLeft (p : Precision) (m k : Nat) (hk : k ≤ p.unitsPerOneLog) :
    magValue p (m <<< (p.unitsPerOneLog - k)) = m / 2 ^ k := by
  have hexp : ((p.unitsPerOneLog - k : ℕ) : ℤ) + p.unitExp = -k := by
    rw [Nat.cast_sub hk]
    cases p <;> simp only [Precision.unitsPerOneLog, Precision.unitExp, Precision.expBias, Precision.fracBits] <;> omega
  rw [magValue, Nat.shiftLeft_eq, Nat.cast_mul, Nat.cast_pow, Nat.cast_ofNat, mul_assoc, ← zpow_natCast,
    ← zpow_add₀ two_ne_zero, hexp, zpow_neg, zpow_natCast, div_eq_mul_inv]

end Sys2Proof.Machine
end

section
/-! PROOFS. The selector and the quantizer on the six codecs, for magnitudes up to K (40_numeric_engine.md R58, R71,
R73, R76). -/

namespace Sys2Proof.Machine

theorem magValue_le_clampConstant {c : Codec} {p : Precision} {n : Nat} (h : n ≤ c.clampUnits p) :
    magValue p n ≤ c.clampConstant := by
  rw [← magValue_clampUnits c p]
  exact (magValue_le_iff p _ _).mpr h

/-- K lies below the tie of the top exponent in every codec but UR14E3. -/
theorem clampConstant_lt_carryBound {c : Codec} (hc : c ≠ .ur14e3) :
    (c.clampConstant : ℚ) < carryBound c.params c.params.maxValidBiasedExp := by
  refine lt_of_le_of_lt ?_ (gmax_lt_carryBound c.params)
  rw [codec_gmax]
  cases c with
  | ur14e3 => exact absurd rfl hc
  | u9e5 | s8e5 | ur9e2 | s13e6 | s18e7 => norm_num [Codec.clampConstant]

/-- The tie of UR14E3's top exponent is 15.99951171875 (R90). -/
theorem carryBound_ur14e3 :
    carryBound Codec.ur14e3.params Codec.ur14e3.params.maxValidBiasedExp = 16383.5 / 1024 := by
  norm_num [carryBound, denomExact, FormatParams.mantissaValues, FormatParams.maxValidBiasedExp, FormatParams.expBias,
    Codec.params]

/-- The exponent saturates in UR14E3 alone, from the tie up. -/
theorem carriedExp_saturates_iff {c : Codec} {p : Precision} {n : Nat} (hn : n ≤ c.clampUnits p) :
    (c.params.maxValidBiasedExp : ℤ) < carriedExp c.params p n ↔ c = .ur14e3 ∧ (16383.5 / 1024 : ℚ) ≤ magValue p n := by
  rw [← not_le, carriedExp_le_iff (Int.natCast_nonneg _), not_lt]
  by_cases hc : c = .ur14e3
  · subst hc
    rw [carryBound_ur14e3, eq_self, true_and]
  · have htie := (magValue_le_clampConstant hn).trans_lt (clampConstant_lt_carryBound hc)
    exact iff_of_false (not_le.mpr htie) fun h => hc h.1

/-- A carry that stays in range leaves half of the mantissas (R76). -/
theorem quantize_of_carry {f : FormatParams} {p : Precision} {n : Nat} (hM : 1 ≤ f.manBits)
    (hcarry : startMantissa f p n = f.mantissaValues) (hrange : carriedExp f p n ≤ f.maxValidBiasedExp) :
    quantize f p n (selectExponent f p n).denomExp = f.mantissaValues / 2 := by
  have hdenom := denomExact_selectExponent hrange
  rw [if_pos hcarry] at hdenom
  have hrhu : rhu n p.unitExp (selectExponent f p n).denomExp = f.mantissaValues / 2 := by
    rw [← Nat.cast_inj (R := ℤ), rhu_eq_rhuExact, selectExponent_denomExp, two_zpow_denomExp, hdenom,
      rhuExact_of_carry hM hcarry]
  rw [quantize, hrhu, min_eq_left (two_mul_half_mantissaValues hM).2]

/-- The largest mantissa of UR14E3 at its top exponent, 15.9990234375, in units (R76). -/
def ur14e3Grid (p : Precision) : Nat := 16383 <<< (p.unitsPerOneLog - 10)

theorem magValue_ur14e3Grid (p : Precision) : magValue p (ur14e3Grid p) = 16383 / 1024 := by
  rw [ur14e3Grid, magValue_shiftLeft p _ 10 (by cases p <;> decide)]
  norm_num

/-- From 15.9990234375 up, UR14E3 selects its top exponent. -/
theorem selectExponent_ur14e3_top {p : Precision} {n : Nat} (h : ur14e3Grid p ≤ n) :
    (selectExponent Codec.ur14e3.params p n).e = 7 := by
  refine le_antisymm (selectExponent_e_le _ p n) (not_lt.mp fun hlt => ?_)
  have htie := (selectExponent_e_le_iff (f := Codec.ur14e3.params) hlt).mp le_rfl
  have hgmax := carryBound_le_gmax (codec_manBits_pos .ur14e3) (Int.ofNat_lt.mpr hlt)
  have hgrid := (magValue_le_iff p _ _).mpr h
  rw [codec_gmax] at hgmax
  rw [magValue_ur14e3Grid] at hgrid
  exact absurd (htie.trans_le hgmax) (not_lt.mpr hgrid)

/-- At exponent 7 the grid maximum of UR14E3 rounds to the largest mantissa. -/
theorem rhu_ur14e3Grid (p : Precision) : rhu (ur14e3Grid p) p.unitExp (denomExp Codec.ur14e3.params 7) = 16383 := by
  have hexp : denomExp Codec.ur14e3.params 7 = -10 := rfl
  rw [← Nat.cast_inj (R := ℤ), rhu_eq_rhuExact, magValue_ur14e3Grid, hexp, ← rhuExact_natCast 16383]
  norm_num

/-- A magnitude above the tie of exponent 7 rounds past the largest mantissa. -/
theorem le_rhu_of_ur14e3_tie {p : Precision} {c : Nat} (h : (16383.5 / 1024 : ℚ) ≤ magValue p c) :
    16384 ≤ rhu c p.unitExp (denomExp Codec.ur14e3.params 7) := by
  rw [← carryBound_ur14e3, ← mantissaValues_le_rhuExact_iff] at h
  exact Nat.cast_le.mp (h.trans_eq (rhu_eq_rhuExact p c _).symm)

end Sys2Proof.Machine
end

section
/-! PROOFS. Patterns as numbers: the fields of a pattern, its class and its exact magnitude (00_scope.md R12,
40_numeric_engine.md R60). -/

namespace Sys2Proof.Machine

theorem expOf_eq_div_mod (p : Precision) (b : Nat) : expOf p b = b / 2 ^ p.fracBits % 2 ^ p.expFieldBits :=
  bf_eq_div_mod _ _ _

theorem fracOf_eq_mod (p : Precision) (b : Nat) : fracOf p b = b % 2 ^ p.fracBits := by
  rw [fracOf, bf_eq_div_mod, Nat.pow_zero, Nat.div_one]

theorem fracOf_lt (p : Precision) (b : Nat) : fracOf p b < 2 ^ p.fracBits := bf_lt _ _ _

/-- The sign of a pattern is its top bit. -/
theorem signOf_iff {p : Precision} {b : Nat} (hb : b < 2 ^ p.width) : signOf p b = true ↔ 2 ^ (p.width - 1) ≤ b := by
  rw [signOf, bf_eq_div_mod, beq_iff_eq]
  cases p <;> simp only [Precision.width] at * <;> omega

theorem classify_of_nan {p : Precision} {b : Nat} (h : IsNaN p b) : classify p b = ⟨.nan, signOf p b, 0⟩ := by
  obtain ⟨hexp, hfrac⟩ := h
  simp only [classify, if_pos hexp, if_neg hfrac]

theorem classify_of_inf {p : Precision} {b : Nat} (h : IsInf p b) : classify p b = ⟨.inf, signOf p b, 0⟩ := by
  obtain ⟨hexp, hfrac⟩ := h
  simp only [classify, if_pos hexp, if_pos hfrac]

theorem classify_of_finite {p : Precision} {b : Nat} (h : IsFinite p b) :
    classify p b = ⟨.fin, signOf p b, finiteMag p (expOf p b) (fracOf p b)⟩ := by
  simp only [classify, if_neg h]

/-- Every pattern is in one class (R12). -/
theorem pattern_cases (p : Precision) (b : Nat) : IsNaN p b ∨ IsInf p b ∨ IsFinite p b := by
  by_cases hexp : expOf p b = p.expAllOnes
  · by_cases hfrac : fracOf p b = 0
    · exact .inr (.inl ⟨hexp, hfrac⟩)
    · exact .inl ⟨hexp, hfrac⟩
  · exact .inr (.inr hexp)

theorem classify_sign (p : Precision) (b : Nat) : (classify p b).sign = signOf p b := by
  rcases pattern_cases p b with h | h | h
  · rw [classify_of_nan h]
  · rw [classify_of_inf h]
  · rw [classify_of_finite h]

/-- The class Classify reads is the class of R12. -/
theorem classify_cls_iff (p : Precision) (b : Nat) :
    ((classify p b).cls = .nan ↔ IsNaN p b) ∧ ((classify p b).cls = .inf ↔ IsInf p b) ∧
      ((classify p b).cls = .fin ↔ IsFinite p b) := by
  rcases pattern_cases p b with h | h | h
  · rw [classify_of_nan h]
    exact ⟨iff_of_true rfl h, iff_of_false nofun fun hinf => h.2 hinf.2, iff_of_false nofun fun hfin => hfin h.1⟩
  · rw [classify_of_inf h]
    exact ⟨iff_of_false nofun fun hnan => hnan.2 h.2, iff_of_true rfl h, iff_of_false nofun fun hfin => hfin h.1⟩
  · rw [classify_of_finite h]
    exact ⟨iff_of_false nofun fun hnan => h hnan.1, iff_of_false nofun fun hinf => h hinf.1, iff_of_true rfl h⟩

/-- The magnitude in units is the rational magnitude of R12. -/
theorem magValue_finiteMag (p : Precision) (b : Nat) :
    magValue p (finiteMag p (expOf p b) (fracOf p b)) = ieeeMagnitude p b := by
  unfold finiteMag ieeeMagnitude
  split
  next => rfl
  next hexp =>
    rw [magValue, Nat.shiftLeft_eq, Nat.cast_mul, mul_assoc, Nat.cast_pow, Nat.cast_ofNat, ← zpow_natCast,
      ← zpow_add₀ two_ne_zero]
    congr 2
    rw [Precision.unitExp, Nat.cast_sub (Nat.pos_of_ne_zero hexp)]
    push_cast; ring

theorem ieeeMagnitude_nonneg (p : Precision) (b : Nat) : 0 ≤ ieeeMagnitude p b := by
  rw [← magValue_finiteMag]; exact magValue_nonneg _ _

@[simp] theorem abs_applySign {v : ℚ} (s : Bool) (hv : 0 ≤ v) : |applySign s v| = v := by
  cases s <;> simp [applySign, abs_of_nonneg hv]

theorem abs_ieeeValue (p : Precision) (b : Nat) : |ieeeValue p b| = ieeeMagnitude p b :=
  abs_applySign _ (ieeeMagnitude_nonneg p b)

end Sys2Proof.Machine
end

section
/-! PROOFS. Condition: what it keeps of a pattern, in units and as R64's function on rationals (40_numeric_engine.md R61
to R64). -/

namespace Sys2Proof.Machine

/-- The magnitude Condition clamps to K, of a pattern that is no NaN (R62); `condition_of_kept` ties it to the model. -/
def clampedMag (c : Codec) (p : Precision) (b : Nat) : Nat :=
  if IsInf p b then c.clampUnits p else min (finiteMag p (expOf p b) (fracOf p b)) (c.clampUnits p)

theorem condition_of_nan {p : Precision} {b : Nat} (c : Codec) (h : IsNaN p b) : condition c p b = ⟨false, 0⟩ := by
  simp only [condition, classify_of_nan h, if_true]

/-- A set sign bit gives 0 in the unsigned codec (R63). -/
theorem condition_of_dropped {c : Codec} {p : Precision} {b : Nat} (hc : c.signed = false) (hs : signOf p b = true) :
    condition c p b = ⟨false, 0⟩ := by
  by_cases h : (classify p b).cls = .nan <;> simp [condition, classify_sign, h, hc, hs]

/-- Any other pattern keeps its sign, and its magnitude up to K. -/
theorem condition_of_kept {c : Codec} {p : Precision} {b : Nat} (hnan : ¬ IsNaN p b)
    (hs : c.signed = true ∨ signOf p b = false) : condition c p b = ⟨signOf p b, clampedMag c p b⟩ := by
  have hsign (v : Nat) : (if c.signed then (⟨signOf p b, v⟩ : Conditioned)
      else if signOf p b then ⟨false, 0⟩ else ⟨false, v⟩) = ⟨signOf p b, v⟩ := by
    rcases hs with hs | hs <;> simp [hs]
  rcases (pattern_cases p b).resolve_left hnan with h | h
  · rw [clampedMag, if_pos h, ← hsign]
    simp only [condition, classify_of_inf h]
    rfl
  · rw [clampedMag, if_neg (fun hinf => h hinf.1), ← hsign]
    simp only [condition, classify_of_finite h]
    rfl

/-- What Condition can do. -/
theorem condition_cases (c : Codec) (p : Precision) (b : Nat) :
    (IsNaN p b ∧ condition c p b = ⟨false, 0⟩) ∨
    (c.signed = false ∧ signOf p b = true ∧ condition c p b = ⟨false, 0⟩) ∨
    (¬ IsNaN p b ∧ (c.signed = true ∨ signOf p b = false) ∧ condition c p b = ⟨signOf p b, clampedMag c p b⟩) := by
  by_cases hnan : IsNaN p b
  · exact .inl ⟨hnan, condition_of_nan c hnan⟩
  · by_cases hs : c.signed = true ∨ signOf p b = false
    · exact .inr (.inr ⟨hnan, hs, condition_of_kept hnan hs⟩)
    · simp only [not_or, Bool.not_eq_true, Bool.not_eq_false] at hs
      exact .inr (.inl ⟨hs.1, hs.2, condition_of_dropped hs.1 hs.2⟩)

theorem clampedMag_le (c : Codec) (p : Precision) (b : Nat) : clampedMag c p b ≤ c.clampUnits p := by
  unfold clampedMag; split
  next => exact le_rfl
  next => exact min_le_right _ _

/-- The magnitude lies in [0, K] (R64). -/
theorem condition_mag_le (c : Codec) (p : Precision) (b : Nat) : (condition c p b).mag ≤ c.clampUnits p := by
  rcases condition_cases c p b with ⟨-, h⟩ | ⟨-, -, h⟩ | ⟨-, -, h⟩ <;> rw [h]
  · exact Nat.zero_le _
  · exact Nat.zero_le _
  · exact clampedMag_le c p b

theorem magValue_clampedMag (c : Codec) (p : Precision) (b : Nat) :
    magValue p (clampedMag c p b) =
      if IsInf p b then (c.clampConstant : ℚ) else min (ieeeMagnitude p b) c.clampConstant := by
  rw [clampedMag, apply_ite (magValue p), magValue_min, magValue_clampUnits, magValue_finiteMag]

/-- A finite pattern is conditioned to no more than its magnitude. -/
theorem magValue_condition_le {p : Precision} {b : Nat} (c : Codec) (hfin : IsFinite p b) :
    magValue p (condition c p b).mag ≤ ieeeMagnitude p b := by
  rcases condition_cases c p b with ⟨-, h⟩ | ⟨-, -, h⟩ | ⟨-, -, h⟩ <;> rw [h]
  · exact (magValue_zero p).trans_le (ieeeMagnitude_nonneg p b)
  · exact (magValue_zero p).trans_le (ieeeMagnitude_nonneg p b)
  · rw [magValue_clampedMag, if_neg (fun hinf => hfin hinf.1)]
    exact min_le_left _ _

/-- Condition computes R64's function on rationals. -/
theorem condition_eq_exact (c : Codec) (p : Precision) (b : Nat) :
    ((condition c p b).sign, magValue p (condition c p b).mag) = conditionExact c p b := by
  rcases condition_cases c p b with ⟨hnan, h⟩ | ⟨hc, hs, h⟩ | ⟨hnan, hs, h⟩ <;> rw [h]
  · rw [conditionExact, if_pos hnan, magValue_zero]
  · simp [conditionExact, hc, hs]
  · rw [conditionExact, if_neg hnan, magValue_clampedMag]
    rcases hs with hs | hs <;> simp [hs]

end Sys2Proof.Machine
end

section
/-! PROOFS. An encode on rationals, lane by lane (40_numeric_engine.md R77, R80, 41_encode.md R85). -/

namespace Sys2Proof.Machine

theorem fields_ext {f g : Fields} (he : f.e = g.e) (hmx : f.mx = g.mx) (hmy : f.my = g.my) (hmz : f.mz = g.mz)
    (hsx : f.sx = g.sx) (hsy : f.sy = g.sy) (hsz : f.sz = g.sz) : f = g := by
  cases f; cases g; simp_all

theorem laneMag_le (c : Codec) (p : Precision) (i : Inputs) (l : Lane) : laneMag c p i l ≤ c.clampUnits p :=
  condition_mag_le c p _

theorem maxMag_le (c : Codec) (p : Precision) (i : Inputs) : maxMag c p i ≤ c.clampUnits p :=
  max_le (laneMag_le c p i .x) (max_le (laneMag_le c p i .y) (laneMag_le c p i .z))

theorem laneMag_le_maxMag (c : Codec) (p : Precision) (i : Inputs) (l : Lane) : laneMag c p i l ≤ maxMag c p i := by
  cases l <;> simp [maxMag]

/-- The denominator of an encode is that of the exponent it stores (R72). -/
theorem encodedFields_man_eq (c : Codec) (p : Precision) (i : Inputs) (l : Lane) :
    (encodedFields c p i).man l =
      quantize c.params p (laneMag c p i l) (denomExp c.params (encodedFields c p i).e) := by
  rw [encodedFields_man, selectExponent_denomExp, encodedFields_e]

/-- A channel below half a denominator rounds to 0. -/
theorem quantize_eq_zero {f : FormatParams} {p : Precision} {n : Nat} {e : ℤ} (h : magValue p n < denomExact f e / 2) :
    quantize f p n (denomExp f e) = 0 := by
  have hrhu : rhuExact (magValue p n / denomExact f e) < 1 := by
    rw [rhuExact_lt_iff, div_lt_iff₀ (denomExact_pos f e)]
    push_cast
    linarith
  rw [← two_zpow_denomExp, ← rhu_eq_rhuExact] at hrhu
  have hzero : rhu n p.unitExp (denomExp f e) = 0 := Nat.lt_one_iff.mp (mod_cast hrhu)
  rw [quantize, hzero, Nat.zero_min]

theorem quantize_zero (f : FormatParams) (p : Precision) (e : ℤ) : quantize f p 0 (denomExp f e) = 0 :=
  quantize_eq_zero ((magValue_zero p).trans_lt (half_pos (denomExact_pos f e)))

/-- A subnormal lies below half of every denominator. -/
theorem ieeeMagnitude_subnormal_lt {p : Precision} {b : Nat} (c : Codec) (e : Nat) (h : IsSubnormal p b) :
    ieeeMagnitude p b < denomExact c.params e / 2 := by
  obtain ⟨hrange, -⟩ := params_exponent_range c
  have hbias : 127 ≤ p.expBias := by cases p <;> decide
  have hfrac : (fracOf p b : ℚ) < 2 ^ (p.fracBits : ℤ) := by rw [zpow_natCast]; exact mod_cast fracOf_lt p b
  calc ieeeMagnitude p b
      = fracOf p b * 2 ^ (1 - (p.expBias : ℤ) - p.fracBits) := if_pos h.1
    _ < 2 ^ (p.fracBits : ℤ) * 2 ^ (1 - (p.expBias : ℤ) - p.fracBits) :=
        mul_lt_mul_of_pos_right hfrac (zpow_pos two_pos _)
    _ = 2 ^ (1 - (p.expBias : ℤ)) := by rw [← zpow_add₀ two_ne_zero]; congr 1; ring
    _ ≤ 2 ^ ((e : ℤ) - c.params.expBias - c.params.manBits - 1) := zpow_le_zpow_right₀ one_le_two (by omega)
    _ = denomExact c.params e / 2 := (half_denomExact _ _).symm

/-- Two patterns of the same datum are conditioned alike (R84). -/
theorem conditionExact_congr {b b' : Nat} (c : Codec) (h : SameDatum b b') :
    conditionExact c .binary32 b = conditionExact c .binary64 b' := by
  rcases h with ⟨hnan, hnan'⟩ | ⟨hsign, ⟨hinf, hinf'⟩ | ⟨hfin, hfin', hmag⟩⟩
  · rw [conditionExact, conditionExact, if_pos hnan, if_pos hnan']
  · have hn : ¬ IsNaN .binary32 b := fun hnan => hnan.2 hinf.2
    have hn' : ¬ IsNaN .binary64 b' := fun hnan => hnan.2 hinf'.2
    simp only [conditionExact, if_neg hn, if_neg hn', if_pos hinf, if_pos hinf', hsign]
  · have hn : ¬ IsNaN .binary32 b := fun hnan => hfin hnan.1
    have hn' : ¬ IsNaN .binary64 b' := fun hnan => hfin' hnan.1
    have hi : ¬ IsInf .binary32 b := fun hinf => hfin hinf.1
    have hi' : ¬ IsInf .binary64 b' := fun hinf => hfin' hinf.1
    simp only [conditionExact, if_neg hn, if_neg hn', if_neg hi, if_neg hi', hsign, hmag]

end Sys2Proof.Machine
end

section
/-! PROOFS. ToIEEE is exact: the fields of the pattern it writes, and their value (40_numeric_engine.md R79). -/

namespace Sys2Proof.Machine

/-- The sign of a pattern ToIEEE writes. -/
theorem signOf_toIeee {p : Precision} {m : Nat} {t : Int} (s : Bool)
    (hexp : m ≠ 0 → (ieeeExponent p m t).toNat < 2 ^ p.expFieldBits) : signOf p (toIeee p s m t) = s := by
  by_cases hm : m = 0
  · subst hm
    rw [toIeee_zero]
    cases p <;> cases s <;> decide
  · obtain ⟨frac, hfrac, heq⟩ := toIeee_eq_add s hm (hexp hm)
    have htop : p.width - 1 = p.fracBits + p.expFieldBits := by rw [width_eq, Nat.add_sub_cancel]
    have hbit : bf (toIeee p s m t) (p.width - 1) 1 = s.toNat := by
      rw [bf_eq_div_mod, htop, Nat.pow_add, ← Nat.div_div_eq_div_mul, heq, Nat.mul_comm,
        Nat.mul_add_div (Nat.two_pow_pos _), Nat.div_eq_of_lt hfrac, Nat.add_zero, Nat.mul_comm,
        Nat.mul_add_div (Nat.two_pow_pos _), Nat.div_eq_of_lt (hexp hm), Nat.add_zero]
      exact Nat.mod_eq_of_lt (Nat.lt_succ_of_le (Bool.toNat_le s))
    rw [signOf, hbit]
    cases s <;> rfl

/-- The fraction ToIEEE writes is the mantissa with its leading bit moved to bit FB, and cut off there. -/
theorem fracOf_toIeee {p : Precision} {m : Nat} {t : Int} (s : Bool) (hm : m ≠ 0) :
    fracOf p (toIeee p s m t) = m * 2 ^ (p.fracBits - Nat.log2 m) % 2 ^ p.fracBits := by
  have hshift (a k : Nat) (h : p.fracBits ≤ k) : a <<< k % 2 ^ p.fracBits = 0 := by
    rw [Nat.shiftLeft_eq]
    exact Nat.mod_eq_zero_of_dvd (Dvd.dvd.mul_left (pow_dvd_pow 2 h) a)
  have htop : p.fracBits ≤ p.width - 1 := by rw [width_eq]; omega
  simp only [fracOf_eq_mod, toIeee, hm, if_false]
  rw [Nat.or_mod_two_pow, Nat.or_mod_two_pow, hshift _ _ htop, hshift _ _ le_rfl, Nat.and_two_pow_sub_one_eq_mod,
    Nat.mod_mod, Nat.or_self, Nat.zero_or, Nat.shiftLeft_eq, Nat.add_sub_add_right]

/-- With its leading bit back, the fraction is the mantissa times a power of two. -/
theorem two_pow_add_fracOf_toIeee {p : Precision} {m : Nat} {t : Int} (s : Bool) (hm : m ≠ 0)
    (hlog : Nat.log2 m ≤ p.fracBits) :
    2 ^ p.fracBits + fracOf p (toIeee p s m t) = m * 2 ^ (p.fracBits - Nat.log2 m) := by
  have hpow : 2 ^ p.fracBits = 2 ^ Nat.log2 m * 2 ^ (p.fracBits - Nat.log2 m) := by
    rw [← Nat.pow_add, Nat.add_sub_cancel' hlog]
  have hle : 2 ^ p.fracBits ≤ m * 2 ^ (p.fracBits - Nat.log2 m) := by
    rw [hpow]; exact Nat.mul_le_mul_right _ (Nat.log2_self_le hm)
  have hlt : m * 2 ^ (p.fracBits - Nat.log2 m) < 2 ^ p.fracBits + 2 ^ p.fracBits := by
    rw [hpow, ← Nat.add_mul, ← Nat.mul_two, ← Nat.pow_succ]
    exact Nat.mul_lt_mul_of_pos_right Nat.lt_log2_self (Nat.two_pow_pos _)
  rw [fracOf_toIeee s hm, Nat.mod_eq_sub_mod hle, Nat.mod_eq_of_lt (by omega), Nat.add_sub_cancel' hle]

/-- The exponent all ones is the largest the exponent field holds (R12). -/
theorem expAllOnes_eq (p : Precision) : p.expAllOnes + 1 = 2 ^ p.expFieldBits := by
  cases p <;> rfl

/-- A biased exponent in the normal range fits its field. -/
theorem ieeeExponent_toNat_lt {p : Precision} {m : Nat} {t : Int} (hexp : ieeeExponent p m t < p.expAllOnes) :
    (ieeeExponent p m t).toNat < 2 ^ p.expFieldBits := by
  rw [← expAllOnes_eq]; omega

/-- The value of a pattern ToIEEE writes, where its exponent is normal (R79). -/
theorem ieeeMagnitude_toIeee {p : Precision} {m : Nat} {t : Int} (s : Bool) (hm : m ≠ 0) (hlt : m < 2 ^ 24)
    (hpos : 0 < ieeeExponent p m t) (hexp : ieeeExponent p m t < p.expAllOnes) :
    ieeeMagnitude p (toIeee p s m t) = m * 2 ^ t := by
  have hlog : Nat.log2 m ≤ p.fracBits := by
    have : Nat.log2 m < 24 := (Nat.log2_lt hm).mpr hlt
    cases p <;> simp only [Precision.fracBits] <;> omega
  have hfield := expOf_toIeee s hm (ieeeExponent_toNat_lt hexp)
  have hscale :
      ((p.fracBits - Nat.log2 m : ℕ) : ℤ) + (((ieeeExponent p m t).toNat : ℤ) - p.expBias - p.fracBits) = t := by
    rw [Int.toNat_of_nonneg hpos.le, Nat.cast_sub hlog, ieeeExponent]
    push_cast; ring
  rw [ieeeMagnitude, hfield, if_neg (by omega), two_pow_add_fracOf_toIeee s hm hlog, Nat.cast_mul, Nat.cast_pow,
    Nat.cast_ofNat, mul_assoc, ← zpow_natCast, ← zpow_add₀ two_ne_zero, hscale]

theorem ieeeMagnitude_of_isZero {p : Precision} {b : Nat} (h : IsZero p b) : ieeeMagnitude p b = 0 := by
  rw [ieeeMagnitude, if_pos h.1, h.2, Nat.cast_zero, zero_mul]

end Sys2Proof.Machine
end

section
/-! PROOFS. A pattern is its sign and its magnitude: two patterns with the same sign and the same value are one
(00_scope.md R12). -/

namespace Sys2Proof.Machine

theorem finiteMag_lt {p : Precision} {e f : Nat} (hf : f < 2 ^ p.fracBits) :
    finiteMag p e f < 2 ^ (p.fracBits + e) := by
  unfold finiteMag; split
  next he => rwa [he, Nat.add_zero]
  next he =>
    obtain ⟨k, rfl⟩ := Nat.exists_eq_succ_of_ne_zero he
    calc (2 ^ p.fracBits + f) <<< (k + 1 - 1)
        = (2 ^ p.fracBits + f) * 2 ^ k := Nat.shiftLeft_eq _ _
      _ < 2 ^ (p.fracBits + 1) * 2 ^ k := Nat.mul_lt_mul_of_pos_right (by rw [Nat.pow_succ]; omega) (Nat.two_pow_pos k)
      _ = 2 ^ (p.fracBits + (k + 1)) := by rw [← Nat.pow_add]; congr 1; omega

theorem le_finiteMag (p : Precision) (e f : Nat) : 2 ^ (p.fracBits + e) ≤ finiteMag p (e + 1) f := by
  rw [finiteMag, if_neg e.succ_ne_zero, Nat.add_sub_cancel, Nat.shiftLeft_eq, Nat.pow_add]
  exact Nat.mul_le_mul_right _ (Nat.le_add_right _ _)

/-- A larger exponent is a larger magnitude, whatever the fractions. -/
theorem finiteMag_lt_of_exp_lt {p : Precision} {e e' f f' : Nat} (hf : f < 2 ^ p.fracBits) (he : e < e') :
    finiteMag p e f < finiteMag p e' f' := by
  obtain ⟨k, rfl⟩ := Nat.exists_eq_succ_of_ne_zero (Nat.ne_zero_of_lt he)
  calc finiteMag p e f
      < 2 ^ (p.fracBits + e) := finiteMag_lt hf
    _ ≤ 2 ^ (p.fracBits + k) := Nat.pow_le_pow_right Nat.two_pos (by omega)
    _ ≤ finiteMag p (k + 1) f' := le_finiteMag p k f'

theorem finiteMag_injective {p : Precision} {e e' f f' : Nat} (hf : f < 2 ^ p.fracBits) (hf' : f' < 2 ^ p.fracBits)
    (h : finiteMag p e f = finiteMag p e' f') : e = e' ∧ f = f' := by
  have he : e = e' := le_antisymm (not_lt.mp fun hlt => (finiteMag_lt_of_exp_lt hf' hlt).ne' h)
    (not_lt.mp fun hlt => (finiteMag_lt_of_exp_lt hf hlt).ne h)
  subst he
  refine ⟨rfl, ?_⟩
  unfold finiteMag at h
  split at h
  next => exact h
  next =>
    rw [Nat.shiftLeft_eq, Nat.shiftLeft_eq] at h
    exact Nat.add_left_cancel (Nat.eq_of_mul_eq_mul_right (Nat.two_pow_pos _) h)

/-- A pattern is its three fields. -/
theorem pattern_eq_fields {p : Precision} {b : Nat} (hb : b < 2 ^ p.width) :
    b = ((signOf p b).toNat * 2 ^ p.expFieldBits + expOf p b) * 2 ^ p.fracBits + fracOf p b := by
  have hsign : (signOf p b).toNat = b / 2 ^ (p.width - 1) := by
    rw [signOf, bf_eq_div_mod, Nat.mod_eq_of_lt (by cases p <;> simp only [Precision.width] at * <;> omega)]
    have : b / 2 ^ (p.width - 1) < 2 := by cases p <;> simp only [Precision.width] at * <;> omega
    interval_cases b / 2 ^ (p.width - 1) <;> rfl
  rw [hsign, expOf_eq_div_mod, fracOf_eq_mod]
  cases p <;> simp only [Precision.width, Precision.fracBits, Precision.expFieldBits] at * <;> omega

/-- Two patterns of the same sign and magnitude are equal. -/
theorem pattern_ext {p : Precision} {a b : Nat} (ha : a < 2 ^ p.width) (hb : b < 2 ^ p.width)
    (hsign : signOf p a = signOf p b) (hmag : ieeeMagnitude p a = ieeeMagnitude p b) : a = b := by
  rw [← magValue_finiteMag, ← magValue_finiteMag] at hmag
  have hunits := le_antisymm ((magValue_le_iff p _ _).mp hmag.le) ((magValue_le_iff p _ _).mp hmag.ge)
  obtain ⟨hexp, hfrac⟩ := finiteMag_injective (fracOf_lt p a) (fracOf_lt p b) hunits
  rw [pattern_eq_fields ha, pattern_eq_fields hb, hsign, hexp, hfrac]

end Sys2Proof.Machine
end

section
/-! PROOFS. A decode is exact on every lane (40_numeric_engine.md R78, R79, 42_decode.md R93). -/

namespace Sys2Proof.Machine

/-- The exponent R79 writes for a non-zero channel of a codec is normal, and fits its field. -/
theorem ieeeExponent_normal {c : Codec} {e m : Nat} (p : Precision) (he : e < 2 ^ c.params.expBits) (hm : m ≠ 0)
    (hlt : m < 2 ^ c.params.manBits) :
    0 < ieeeExponent p m (denomExp c.params e) ∧ ieeeExponent p m (denomExp c.params e) < p.expAllOnes := by
  obtain ⟨hlow, hhigh⟩ := ieeeExponent_range p he hm hlt
  have hbias : 81 < p.expBias ∧ p.expBias + 63 < p.expAllOnes := by cases p <;> decide
  omega

theorem codec_manBits_le (c : Codec) : c.params.manBits ≤ 24 := by
  cases c <;> decide

/-- The pattern of a decoded channel has its sign, and exactly its value. -/
theorem decodedChannel_exact {c : Codec} {f : Fields} {m : Nat} (p : Precision) (s : Bool)
    (he : f.e < 2 ^ c.params.expBits) (hlt : m < 2 ^ c.params.manBits) :
    signOf p (decodedChannel c p f s m) = s ∧
      ieeeMagnitude p (decodedChannel c p f s m) = m * denomExact c.params f.e := by
  have hnormal (hm : m ≠ 0) := ieeeExponent_normal p he hm hlt
  refine ⟨signOf_toIeee s fun hm => ieeeExponent_toNat_lt (hnormal hm).2, ?_⟩
  by_cases hm : m = 0
  · subst hm
    rw [decodedChannel, ieeeMagnitude_of_isZero (isZero_toIeee_zero p s _), Nat.cast_zero, zero_mul]
  · obtain ⟨hpos, hexp⟩ := hnormal hm
    have hlt24 : m < 2 ^ 24 := hlt.trans_le (Nat.pow_le_pow_right Nat.two_pos (codec_manBits_le c))
    exact ieeeMagnitude_toIeee s hm hlt24 hpos hexp

/-- The pattern a decoded port holds (R20, R93). -/
theorem decodeOutputs_port_toNat (c : Codec) (p : Precision) (i : Inputs) (l : Lane) :
    ((decodeOutputs c p i).port l).toNat =
      decodedChannel c p (decodedFields c i) ((decodedFields c i).sgn l) ((decodedFields c i).man l) := by
  obtain ⟨hlt, -⟩ :=
    decodedChannel_range p ((decodedFields c i).sgn l) (decodedFields_e_lt c i) (decodedFields_man_lt c i l)
  have hwidth : 2 ^ p.width ≤ 2 ^ 64 := by cases p <;> decide
  rw [decodeOutputs_port, BitVec.toNat_ofNat, Nat.mod_eq_of_lt (hlt.trans_le hwidth)]

theorem decodeOutputs_port_lt (c : Codec) (p : Precision) (i : Inputs) (l : Lane) :
    ((decodeOutputs c p i).port l).toNat < 2 ^ p.width := (decodeOutputs_port_decoded c p i l).1

theorem signOf_decodeOutputs (c : Codec) (p : Precision) (i : Inputs) (l : Lane) :
    signOf p ((decodeOutputs c p i).port l).toNat = (decodedFields c i).sgn l := by
  rw [decodeOutputs_port_toNat]
  exact (decodedChannel_exact p _ (decodedFields_e_lt c i) (decodedFields_man_lt c i l)).1

theorem ieeeMagnitude_decodeOutputs (c : Codec) (p : Precision) (i : Inputs) (l : Lane) :
    ieeeMagnitude p ((decodeOutputs c p i).port l).toNat =
      (decodedFields c i).man l * denomExact c.params (decodedFields c i).e := by
  rw [decodeOutputs_port_toNat]
  exact (decodedChannel_exact p _ (decodedFields_e_lt c i) (decodedFields_man_lt c i l)).2

theorem ieeeValue_decodeOutputs (c : Codec) (p : Precision) (i : Inputs) (l : Lane) :
    ieeeValue p ((decodeOutputs c p i).port l).toNat =
      decodedValue c.params (decodedFields c i).e ((decodedFields c i).sgn l) ((decodedFields c i).man l) := by
  rw [ieeeValue, signOf_decodeOutputs, ieeeMagnitude_decodeOutputs, decodedValue]

/-- A decoded port holds a zero exactly where the mantissa is 0. -/
theorem isZero_decodeOutputs_iff (c : Codec) (p : Precision) (i : Inputs) (l : Lane) :
    IsZero p ((decodeOutputs c p i).port l).toNat ↔ (decodedFields c i).man l = 0 := by
  constructor
  · intro hzero
    have hmag := ieeeMagnitude_of_isZero hzero
    rw [ieeeMagnitude_decodeOutputs, mul_eq_zero] at hmag
    exact Nat.cast_eq_zero.mp (hmag.resolve_right (denomExact_pos _ _).ne')
  · intro hman
    rw [decodeOutputs_port_toNat, hman]
    exact isZero_toIeee_zero p _ _

/-- A decoded port holds no NaN and no infinity. -/
theorem isFinite_decodeOutputs (c : Codec) (p : Precision) (i : Inputs) (l : Lane) :
    IsFinite p ((decodeOutputs c p i).port l).toNat := by
  rcases (decodeOutputs_port_decoded c p i l).2 with ⟨hexp, -⟩ | ⟨-, hhigh⟩
  · rw [IsFinite, hexp]; cases p <;> decide
  · have : p.expBias + 63 < p.expAllOnes := by cases p <;> decide
    rw [IsFinite]; omega

/-- The unsigned codec decodes no sign (R93). -/
theorem decodedFields_sgn_unsigned {c : Codec} (hc : c.signed = false) (i : Inputs) (l : Lane) :
    (decodedFields c i).sgn l = false := by
  obtain ⟨-, -, -, -, hsign⟩ := unpack_inRange c i.inA.toNat i.inB.toNat
  obtain ⟨hx, hy, hz⟩ := hsign hc
  cases l with
  | x => exact hx
  | y => exact hy
  | z => exact hz

end Sys2Proof.Machine
end

section
/-! PROOFS. Unpacking what was packed: the slices of a field cover it, and no two slots share a bit of a word, so each
bit comes back from the slot it was put in (30_encoding.md R43 to R51, 42_decode.md R93). -/

namespace Sys2Proof.Machine

/-- Every stored bit of a field lies in one of its slices. -/
theorem layout_covers_field (c : Codec) (n : FieldName) :
    ∀ j < c.layout.fieldWidth n, ∃ s ∈ c.layout.slots, s.field = n ∧ s.low ≤ j ∧ j < s.low + s.width := by
  cases c <;> cases n <;> decide

/-- Two slots of a layout that hold the same bit of a word are one. -/
theorem slot_eq_of_bit {l : Layout} (hl : l.Disjoint) {s t : Slot} (hs : s ∈ l.slots) (ht : t ∈ l.slots)
    (hword : s.word = t.word) {i : Nat} (hsi : s.offset ≤ i ∧ i < s.offset + s.width)
    (hti : t.offset ≤ i ∧ i < t.offset + t.width) : s = t := by
  by_contra hne
  have hsymm : Std.Symm Layout.SlotsApart := ⟨fun a b h => by
    rcases h with h | h | h
    · exact .inl h.symm
    · exact .inr (.inr h)
    · exact .inr (.inl h)⟩
  rcases hl.forall hs ht hne with h | h | h
  · exact h hword
  · omega
  · omega

/-- The fields that fit a codec fit the bits its layout stores of them. -/
theorem get_lt_of_inRange {c : Codec} {f : Fields} (hf : f.InRange c) (n : FieldName) :
    f.get n < 2 ^ c.layout.fieldWidth n := by
  obtain ⟨he, hmx, hmy, hmz, hsign⟩ := hf
  have hman {n : FieldName} (hn : n ∈ [FieldName.mx, .my, .mz]) {m : Nat} (hm : m ≤ c.params.maxMantissa) :
      m < 2 ^ c.layout.fieldWidth n := by
    rw [layout_fieldWidth_mantissa c n hn]
    exact (Nat.lt_succ_of_le hm).trans_eq c.params.maxMantissa_add_one
  have hbit {n : FieldName} (hn : n ∈ [FieldName.sx, .sy, .sz]) {s : Bool} (hs : c.signed = false → s = false) :
      s.toNat < 2 ^ c.layout.fieldWidth n := by
    rw [layout_fieldWidth_sign c n hn]
    split
    next => exact Nat.lt_succ_of_le (Bool.toNat_le s)
    next hc => rw [hs (Bool.eq_false_iff.mpr hc)]; exact Nat.two_pow_pos _
  cases n with
  | e =>
    rw [layout_fieldWidth_e]
    exact (Nat.lt_succ_of_le he).trans_eq (Nat.sub_add_cancel Nat.one_le_two_pow)
  | mx => exact hman (by decide) hmx
  | my => exact hman (by decide) hmy
  | mz => exact hman (by decide) hmz
  | sx => exact hbit (by decide) fun hc => (hsign hc).1
  | sy => exact hbit (by decide) fun hc => (hsign hc).2.1
  | sz => exact hbit (by decide) fun hc => (hsign hc).2.2

theorem wordValue_packWord (l : Layout) (f : Fields) (w : WordName) :
    wordValue (packWord l f .A) (packWord l f .B) w = packWord l f w := by
  cases w <;> rfl

/-- A field is unpacked from the words it was packed in (R50, R93). -/
theorem unpackField_packWord {c : Codec} {f : Fields} (hf : f.InRange c) (n : FieldName) :
    unpackField c.layout (packWord c.layout f .A) (packWord c.layout f .B) n = f.get n := by
  refine Nat.eq_of_testBit_eq fun j => ?_
  rw [Bool.eq_iff_iff, testBit_unpackField]
  simp only [wordValue_packWord, testBit_packWord]
  constructor
  · rintro ⟨s, hs, rfl, hj, t, ht, hword, hin, hbit⟩
    obtain rfl := slot_eq_of_bit (layout_disjoint c) ht hs hword hin (by omega)
    rwa [Nat.add_sub_cancel_left, Nat.add_sub_cancel' hj.1] at hbit
  · intro hbit
    have hj : j < c.layout.fieldWidth n := by
      by_contra hout
      have hwidth := Nat.pow_le_pow_right Nat.two_pos (not_lt.mp hout)
      rw [Nat.testBit_lt_two_pow ((get_lt_of_inRange hf n).trans_le hwidth)] at hbit
      cases hbit
    obtain ⟨s, hs, hfield, hlow, hhigh⟩ := layout_covers_field c n j hj
    refine ⟨s, hs, hfield, ⟨hlow, hhigh⟩, s, hs, rfl, by omega, ?_⟩
    rwa [Nat.add_sub_cancel_left, Nat.add_sub_cancel' hlow, hfield]

/-- Unpacking the packed words gives the fields back. -/
theorem unpack_pack {c : Codec} {f : Fields} (hf : f.InRange c) :
    unpack c.layout (packWord c.layout f .A) (packWord c.layout f .B) = f := by
  have hfield := unpackField_packWord hf
  have hsign (s : Bool) : (s.toNat == 1) = s := by cases s <;> rfl
  refine fields_ext (hfield .e) (hfield .mx) (hfield .my) (hfield .mz) ?_ ?_ ?_
  · exact (congrArg (· == 1) (hfield .sx)).trans (hsign f.sx)
  · exact (congrArg (· == 1) (hfield .sy)).trans (hsign f.sy)
  · exact (congrArg (· == 1) (hfield .sz)).trans (hsign f.sz)

theorem encodedFields_e_le (c : Codec) (p : Precision) (i : Inputs) :
    (encodedFields c p i).e ≤ c.params.maxValidBiasedExp := selectExponent_e_le _ _ _

theorem encodedFields_man_le (c : Codec) (p : Precision) (i : Inputs) (l : Lane) :
    (encodedFields c p i).man l ≤ c.params.maxMantissa := by
  rw [encodedFields_man]; exact quantize_le _ _ _ _

/-- The sign of an encoded lane is the pattern's, unless it is a NaN or the codec has none (R61, R63, R77). -/
theorem encodedFields_sgn_iff (c : Codec) (p : Precision) (i : Inputs) (l : Lane) :
    (encodedFields c p i).sgn l = true ↔
      c.signed = true ∧ ¬ IsNaN p (laneBits p i l) ∧ signOf p (laneBits p i l) = true := by
  rw [encodedFields_sgn]
  rcases condition_cases c p (laneBits p i l) with ⟨hnan, h⟩ | ⟨hc, -, h⟩ | ⟨hnan, hs, h⟩ <;> rw [h]
  · exact iff_of_false (by simp) fun hkeep => hkeep.2.1 hnan
  · exact iff_of_false (by simp) fun hkeep => by simp [hc] at hkeep
  · refine ⟨fun hsign => ⟨hs.resolve_right ?_, hnan, hsign⟩, fun hkeep => hkeep.2.2⟩
    rw [Bool.eq_false_iff, not_not]; exact hsign

/-- The encoder's fields fit their codec (R73, R76). -/
theorem encodedFields_inRange (c : Codec) (p : Precision) (i : Inputs) : (encodedFields c p i).InRange c := by
  have hman := encodedFields_man_le c p i
  have hsign (hc : c.signed = false) (l : Lane) : (encodedFields c p i).sgn l = false := by
    rw [Bool.eq_false_iff]
    intro hs
    rw [encodedFields_sgn_iff, hc] at hs
    exact absurd hs.1 Bool.false_ne_true
  exact ⟨encodedFields_e_le c p i, hman .x, hman .y, hman .z, fun hc => ⟨hsign hc .x, hsign hc .y, hsign hc .z⟩⟩

/-- A decode of the words of an encode reads the fields the encode packed. -/
theorem decodedFields_of_encodeOutputs {c : Codec} {p : Precision} {i j : Inputs}
    (hA : j.inA = (encodeOutputs c p i).outA) (hB : j.inB = (encodeOutputs c p i).outB) :
    decodedFields c j = encodedFields c p i := by
  have hbits (w : WordName) : 2 ^ c.layout.bitsOf w ≤ 2 ^ 32 :=
    Nat.pow_le_pow_right Nat.two_pos (by cases c <;> cases w <;> decide)
  have hword (w : WordName) : (BitVec.ofNat 32 (packWord c.layout (encodedFields c p i) w)).toNat =
      packWord c.layout (encodedFields c p i) w := by
    rw [BitVec.toNat_ofNat]
    exact Nat.mod_eq_of_lt ((packWord_lt (layout_slotsInside c) _ w).trans_le (hbits w))
  have hA' : j.inA.toNat = packWord c.layout (encodedFields c p i) .A := by rw [hA]; exact hword .A
  have hB' : j.inB.toNat = packWord c.layout (encodedFields c p i) .B := by rw [hB]; exact hword .B
  rw [decodedFields, hA', hB']
  exact unpack_pack (encodedFields_inRange c p i)

end Sys2Proof.Machine
end

section
/-! PROOFS. The grid of a codec: quantizing at the selected exponent is RHU of the channel clamped to min(K, GMAX)
(40_numeric_engine.md R71, R75, R76, R83). -/

namespace Sys2Proof.Machine

/-- What is rounded at a denominator lies within half of it. -/
theorem abs_mul_sub_le_of_rhuExact {m : Nat} {v d : ℚ} (hd : 0 < d) (h : (m : ℤ) = rhuExact (v / d)) :
    |m * d - v| ≤ d / 2 := by
  have hround := abs_rhuExact_sub_le (v / d)
  rw [← h, Int.cast_natCast] at hround
  calc |m * d - v|
      = |(m : ℚ) - v / d| * d := by
        rw [← abs_of_pos hd, ← abs_mul, abs_of_pos hd, sub_mul, div_mul_cancel₀ _ hd.ne']
    _ ≤ 1 / 2 * d := mul_le_mul_of_nonneg_right hround hd.le
    _ = d / 2 := by ring

/-- A whole number of denominators is rounded to itself. -/
theorem rhuExact_mul_div {d : ℚ} (hd : 0 < d) (k : Nat) : rhuExact (k * d / d) = k := by
  rw [mul_div_cancel_right₀ _ hd.ne', rhuExact_natCast]

/-- The limit of the quantizer is a clamp of the channel to the largest mantissa (R76). -/
theorem quantize_eq_clamped (f : FormatParams) (p : Precision) (n : Nat) (e : ℤ) :
    (quantize f p n (denomExp f e) : ℤ) =
      rhuExact (min (magValue p n) (f.maxMantissa * denomExact f e) / denomExact f e) := by
  have hd := denomExact_pos f e
  have hmono : Monotone fun v => rhuExact (v / denomExact f e) := fun _ _ h =>
    rhuExact_mono (div_le_div_of_nonneg_right h hd.le)
  calc (quantize f p n (denomExp f e) : ℤ)
      = min (rhuExact (magValue p n / denomExact f e)) f.maxMantissa := quantize_eq_exact f p n _
    _ = min (rhuExact (magValue p n / denomExact f e))
          (rhuExact (f.maxMantissa * denomExact f e / denomExact f e)) := by rw [rhuExact_mul_div hd]
    _ = rhuExact (min (magValue p n) (f.maxMantissa * denomExact f e) / denomExact f e) := hmono.map_min.symm

/-- Below the tie the limit does nothing. -/
theorem quantize_of_lt_carryBound {f : FormatParams} {p : Precision} {n : Nat} {e : ℤ}
    (h : magValue p n < carryBound f e) :
    (quantize f p n (denomExp f e) : ℤ) = rhuExact (magValue p n / denomExact f e) := by
  rw [quantize, min_eq_left (rhu_le_maxMantissa h)]
  exact rhu_eq_rhuExact p n _

/-- Quantizing a channel at the exponent selected for the largest one is RHU of the channel clamped to min(K, GMAX):
below the top exponent neither clamp binds, and at the top one the largest mantissa is GMAX. -/
theorem quantize_eq_grid {c : Codec} {p : Precision} {n maxmag : Nat} (hn : n ≤ maxmag)
    (hmax : maxmag ≤ c.clampUnits p) :
    (quantize c.params p n (denomExp c.params (selectExponent c.params p maxmag).e) : ℤ) =
      rhuExact (min (magValue p n) (gridMax c) / denomExact c.params (selectExponent c.params p maxmag).e) := by
  have hK : magValue p n ≤ c.clampConstant := magValue_le_clampConstant (hn.trans hmax)
  rcases (selectExponent_e_le c.params p maxmag).eq_or_lt with htop | hbelow
  · rw [quantize_eq_clamped, htop, ← FormatParams.gmax_eq, gridMax, ← min_assoc, min_eq_left hK]
  · have htie : magValue p n < carryBound c.params (selectExponent c.params p maxmag).e :=
      ((magValue_le_iff p _ _).mpr hn).trans_lt ((selectExponent_e_le_iff hbelow).mp le_rfl)
    have hG : magValue p n ≤ gridMax c :=
      le_min hK (htie.le.trans (carryBound_le_gmax (codec_manBits_pos c) (mod_cast hbelow)))
    rw [quantize_of_lt_carryBound htie, min_eq_left hG]

/-- GMAX is at most K but in UR9E2 (R58). -/
theorem gridMax_of_ne_ur9e2 {c : Codec} (hc : c ≠ .ur9e2) : gridMax c = c.params.gmax := by
  refine min_eq_right ?_
  rw [codec_gmax]
  cases c with
  | ur9e2 => exact absurd rfl hc
  | u9e5 | s8e5 | s13e6 | ur14e3 | s18e7 => norm_num [Codec.clampConstant]

theorem gridMax_ur9e2 : gridMax .ur9e2 = 1 := by
  rw [gridMax, codec_gmax]
  norm_num [Codec.clampConstant]

theorem gridMax_le_clampConstant (c : Codec) : gridMax c ≤ c.clampConstant := min_le_left _ _

/-- min(K, GMAX) is a whole number of denominators at every exponent (R83). -/
theorem gridMax_eq_mul {c : Codec} {e : Nat} (he : e ≤ c.params.maxValidBiasedExp) :
    ∃ k : ℕ, gridMax c = k * denomExact c.params e := by
  by_cases hc : c = .ur9e2
  · subst hc
    have hone : denomExact Codec.ur9e2.params 10 = 1 := by
      norm_num [denomExact, FormatParams.expBias, FormatParams.maxValidBiasedExp, Codec.params]
    have hle : (e : ℤ) ≤ 10 := by have : e ≤ 3 := he; omega
    exact ⟨_, by rw [← denomExact_eq_mul_pow hle, hone, gridMax_ur9e2]⟩
  · have hle : (e : ℤ) ≤ c.params.maxValidBiasedExp := mod_cast he
    exact ⟨_, by
      rw [gridMax_of_ne_ur9e2 hc, FormatParams.gmax_eq, denomExact_eq_mul_pow hle, ← mul_assoc, ← Nat.cast_mul]⟩

theorem gridMax_nonneg (c : Codec) : 0 ≤ gridMax c := by
  obtain ⟨k, hk⟩ := gridMax_eq_mul (c := c) (Nat.zero_le _)
  rw [hk]
  exact mul_nonneg (Nat.cast_nonneg k) (denomExact_pos _ _).le

end Sys2Proof.Machine
end

section
/-! PROOFS. A lane of an encode on the grid of its codec (40_numeric_engine.md R83, R84). -/

namespace Sys2Proof.Machine

/-- The encoded mantissa is RHU of the lane clamped to min(K, GMAX). -/
theorem encodedFields_man_grid (c : Codec) (p : Precision) (i : Inputs) (l : Lane) :
    ((encodedFields c p i).man l : ℤ) =
      rhuExact (min (magValue p (laneMag c p i l)) (gridMax c) / denomExact c.params (encodedFields c p i).e) := by
  rw [encodedFields_man_eq, encodedFields_e]
  exact quantize_eq_grid (laneMag_le_maxMag c p i l) (maxMag_le c p i)

/-- A lane that clamps to a whole number of denominators is encoded without error. -/
theorem encodedFields_man_of_whole {c : Codec} {p : Precision} {i : Inputs} {l : Lane} {k : Nat}
    (h : min (magValue p (laneMag c p i l)) (gridMax c) = k * denomExact c.params (encodedFields c p i).e) :
    (encodedFields c p i).man l = k := by
  rw [← Nat.cast_inj (R := ℤ), encodedFields_man_grid, h, rhuExact_mul_div (denomExact_pos _ _)]

/-- An encoded magnitude is at most min(K, GMAX) (R84). -/
theorem encodedFields_mul_le_gridMax (c : Codec) (p : Precision) (i : Inputs) (l : Lane) :
    (encodedFields c p i).man l * denomExact c.params (encodedFields c p i).e ≤ gridMax c := by
  have hd := denomExact_pos c.params (encodedFields c p i).e
  obtain ⟨k, hk⟩ := gridMax_eq_mul (encodedFields_e_le c p i)
  have hle : ((encodedFields c p i).man l : ℤ) ≤ k := by
    rw [encodedFields_man_grid, ← rhuExact_mul_div hd k, ← hk]
    exact rhuExact_mono (div_le_div_of_nonneg_right (min_le_right _ _) hd.le)
  rw [hk]
  exact mul_le_mul_of_nonneg_right (mod_cast hle) hd.le

/-- A kept finite lane, clamped to min(K, GMAX), is its magnitude so clamped (R62). -/
theorem min_laneMag_of_finite {c : Codec} {p : Precision} {i : Inputs} {l : Lane} (hfin : IsFinite p (laneBits p i l))
    (hs : c.signed = true ∨ signOf p (laneBits p i l) = false) :
    min (magValue p (laneMag c p i l)) (gridMax c) = min (ieeeMagnitude p (laneBits p i l)) (gridMax c) := by
  rw [laneMag, condition_of_kept (fun hnan => hfin hnan.1) hs, magValue_clampedMag, if_neg fun hinf => hfin hinf.1,
    min_assoc, min_eq_right (gridMax_le_clampConstant c)]

/-- A kept lane of at least min(K, GMAX) is encoded as min(K, GMAX). -/
theorem encodedFields_mul_of_magAtLeast {c : Codec} {p : Precision} {i : Inputs} {l : Lane}
    (hs : c.signed = true ∨ signOf p (laneBits p i l) = false) (h : MagAtLeast p (laneBits p i l) (gridMax c)) :
    (encodedFields c p i).man l * denomExact c.params (encodedFields c p i).e = gridMax c := by
  obtain ⟨k, hk⟩ := gridMax_eq_mul (encodedFields_e_le c p i)
  have hclamp : min (magValue p (laneMag c p i l)) (gridMax c) = gridMax c := by
    rcases h with hinf | ⟨hfin, hmag⟩
    · rw [laneMag, condition_of_kept (fun hnan => hnan.2 hinf.2) hs, magValue_clampedMag, if_pos hinf]
      exact min_eq_right (gridMax_le_clampConstant c)
    · rw [min_laneMag_of_finite hfin hs, min_eq_right hmag]
  rw [encodedFields_man_of_whole (hclamp.trans hk), hk]

/-- A kept lane keeps its sign (R64, R77). -/
theorem encodedFields_sgn_of_kept {c : Codec} {p : Precision} {i : Inputs} {l : Lane}
    (hnan : ¬ IsNaN p (laneBits p i l)) (hs : c.signed = true ∨ signOf p (laneBits p i l) = false) :
    (encodedFields c p i).sgn l = signOf p (laneBits p i l) := by
  rw [encodedFields_sgn, condition_of_kept hnan hs]

/-- A set sign bit is encoded as 0 in the unsigned codec (R63). -/
theorem encodedFields_of_dropped {c : Codec} {p : Precision} {i : Inputs} {l : Lane} (hc : c.signed = false)
    (hs : signOf p (laneBits p i l) = true) :
    (encodedFields c p i).man l = 0 ∧ (encodedFields c p i).sgn l = false := by
  have hcond := condition_of_dropped hc hs
  rw [encodedFields_sgn, encodedFields_man_eq, laneMag, hcond]
  exact ⟨quantize_zero _ _ _, rfl⟩

theorem abs_applySign_sub (s : Bool) (v w : ℚ) : |applySign s v - applySign s w| = |v - w| := by
  cases s with
  | false => rfl
  | true => rw [applySign, applySign, if_pos rfl, if_pos rfl, neg_sub_neg, abs_sub_comm]

/-- The decoded value of an encoded lane lies within half a denominator of the lane clamped to min(K, GMAX) (R83). -/
theorem abs_decodedValue_sub_le {c : Codec} {p : Precision} {i : Inputs} {l : Lane}
    (hfin : IsFinite p (laneBits p i l)) (hs : c.signed = false → 0 ≤ ieeeValue p (laneBits p i l)) :
    |decodedValue c.params (encodedFields c p i).e ((encodedFields c p i).sgn l) ((encodedFields c p i).man l) -
        applySign (signOf p (laneBits p i l)) (min (ieeeMagnitude p (laneBits p i l)) (gridMax c))| ≤
      denomExact c.params (encodedFields c p i).e / 2 := by
  have hd := denomExact_pos c.params (encodedFields c p i).e
  by_cases hkept : c.signed = true ∨ signOf p (laneBits p i l) = false
  · rw [decodedValue, encodedFields_sgn_of_kept (fun hnan => hfin hnan.1) hkept, abs_applySign_sub,
      ← min_laneMag_of_finite hfin hkept]
    exact abs_mul_sub_le_of_rhuExact hd (encodedFields_man_grid c p i l)
  · simp only [not_or, Bool.not_eq_true, Bool.not_eq_false] at hkept
    obtain ⟨hc, hsign⟩ := hkept
    obtain ⟨hman, hsgn⟩ := encodedFields_of_dropped hc hsign
    have hzero : ieeeMagnitude p (laneBits p i l) = 0 := by
      have hv := hs hc
      rw [ieeeValue, hsign, applySign, if_pos rfl] at hv
      exact le_antisymm (by linarith) (ieeeMagnitude_nonneg p _)
    rw [hman, hsgn, hzero, min_eq_left (gridMax_nonneg c), decodedValue, Nat.cast_zero, zero_mul, hsign, applySign,
      applySign, if_pos rfl, if_neg Bool.false_ne_true, neg_zero, sub_zero, abs_zero]
    exact (half_pos hd).le

end Sys2Proof.Machine
end

section
/-! PROOFS. The host's round trips: a decode of an encode's words, and an encode of a decode's channels (10_state.md
R120, 40_numeric_engine.md R83, R84). -/

namespace Sys2Proof.Machine

/-- An encode, the words fed to the decode of the same codec, and the decode. -/
theorem exec_encode_decode {enc dec : Instr} (h : Paired enc dec) (s : State) :
    ∃ t u, exec enc s = .next t ∧ exec dec t.feedWords = .next u ∧
      ∃ j, u.outs = decodeOutputs enc.codec enc.precision j ∧
        decodedFields enc.codec j = encodedFields enc.codec enc.precision s.ins := by
  obtain ⟨henc, hdec, hcodec, hprec⟩ := h
  refine ⟨_, _, exec_eq_next enc s, exec_eq_next dec _,
    State.ins (State.feedWords (s.settle (operationOutputs enc s.ins))), ?_, decodedFields_of_encodeOutputs ?_ ?_⟩
  · rw [State.settle_outs, operationOutputs_of_decode hdec, hcodec, hprec]
  · rw [State.feedWords_inA, State.settle_outs, operationOutputs_of_encode henc]
  · rw [State.feedWords_inB, State.settle_outs, operationOutputs_of_encode henc]

/-- Decoded ports are read back whole by an encode. -/
theorem laneBits_of_decodeOutputs {c : Codec} {p : Precision} {i j : Inputs} {l : Lane}
    (h : j.port l = (decodeOutputs c p i).port l) : laneBits p j l = ((decodeOutputs c p i).port l).toNat := by
  rw [laneBits, channelBits_eq_mod, h, Nat.mod_eq_of_lt (decodeOutputs_port_lt c p i l)]

/-- Decode outputs are their channels. -/
theorem decodeOutputs_ext {c : Codec} {p : Precision} {i j : Inputs}
    (h : ∀ l : Lane, (decodeOutputs c p i).port l = (decodeOutputs c p j).port l) :
    decodeOutputs c p i = decodeOutputs c p j := by
  have hx : (decodeOutputs c p i).outX = (decodeOutputs c p j).outX := h .x
  have hy : (decodeOutputs c p i).outY = (decodeOutputs c p j).outY := h .y
  have hz : (decodeOutputs c p i).outZ = (decodeOutputs c p j).outZ := h .z
  simp only [decodeOutputs, channelOutputs] at hx hy hz ⊢
  rw [hx, hy, hz]

section Redecode

variable {c : Codec} {p : Precision} {i j : Inputs}

/-- The decoded mantissas fit their codec (R52). -/
theorem decodedFields_man_le (c : Codec) (i : Inputs) (l : Lane) : (decodedFields c i).man l ≤ c.params.maxMantissa :=
  Nat.le_sub_one_of_lt (decodedFields_man_lt c i l)

theorem decodedFields_e_le (c : Codec) (i : Inputs) : (decodedFields c i).e ≤ c.params.maxValidBiasedExp :=
  Nat.le_sub_one_of_lt (decodedFields_e_lt c i)

/-- A decoded channel is kept by Condition: it is finite, and negative in a signed codec alone. -/
theorem decodeOutputs_kept (c : Codec) (p : Precision) (i : Inputs) (l : Lane) :
    c.signed = true ∨ signOf p ((decodeOutputs c p i).port l).toNat = false := by
  cases hc : c.signed with
  | true => exact .inl rfl
  | false => exact .inr ((signOf_decodeOutputs c p i l).trans (decodedFields_sgn_unsigned hc i l))

/-- Encoding decoded channels gives an exponent that is no larger: every mantissa lies below the tie. -/
theorem encodedFields_e_le_decodedFields (h : ∀ l : Lane, j.port l = (decodeOutputs c p i).port l) :
    (encodedFields c p j).e ≤ (decodedFields c i).e := by
  have hlane (l : Lane) : magValue p (laneMag c p j l) < carryBound c.params (decodedFields c i).e := by
    have hbits := laneBits_of_decodeOutputs (h l)
    have hfin : IsFinite p (laneBits p j l) := by rw [hbits]; exact isFinite_decodeOutputs c p i l
    have hd := denomExact_pos c.params (decodedFields c i).e
    have hman : ((decodedFields c i).man l : ℚ) ≤ c.params.maxMantissa := mod_cast decodedFields_man_le c i l
    calc magValue p (laneMag c p j l)
        ≤ ieeeMagnitude p (laneBits p j l) := magValue_condition_le c hfin
      _ = (decodedFields c i).man l * denomExact c.params (decodedFields c i).e := by
          rw [hbits, ieeeMagnitude_decodeOutputs]
      _ < carryBound c.params (decodedFields c i).e := by
          rw [c.params.maxMantissa_cast] at hman
          rw [carryBound]
          exact mul_lt_mul_of_pos_right (by linarith) hd
  rcases (decodedFields_e_le c i).eq_or_lt with htop | hbelow
  · rw [htop]; exact encodedFields_e_le c p j
  · rw [encodedFields_e, selectExponent_e_le_iff hbelow, maxMag, magValue_max, magValue_max]
    exact max_lt (hlane .x) (max_lt (hlane .y) (hlane .z))

/-- Encoding decoded channels keeps each sign, and each magnitude up to min(K, GMAX) (R84). -/
theorem encodedFields_of_decodeOutputs (h : ∀ l : Lane, j.port l = (decodeOutputs c p i).port l) (l : Lane) :
    (encodedFields c p j).sgn l = (decodedFields c i).sgn l ∧
      (encodedFields c p j).man l * denomExact c.params (encodedFields c p j).e =
        min ((decodedFields c i).man l * denomExact c.params (decodedFields c i).e) (gridMax c) := by
  have hbits := laneBits_of_decodeOutputs (h l)
  have hkept := decodeOutputs_kept c p i l
  have hfin := isFinite_decodeOutputs c p i l
  rw [← hbits] at hkept hfin
  have hle : ((encodedFields c p j).e : ℤ) ≤ (decodedFields c i).e := mod_cast encodedFields_e_le_decodedFields h
  obtain ⟨k, hk⟩ := gridMax_eq_mul (encodedFields_e_le c p j)
  have hd := denomExact_pos c.params (encodedFields c p j).e
  have hclamp := min_laneMag_of_finite hfin hkept
  constructor
  · rw [encodedFields_sgn_of_kept (fun hnan => hfin hnan.1) hkept, hbits, signOf_decodeOutputs]
  · rw [hbits, ieeeMagnitude_decodeOutputs, denomExact_eq_mul_pow hle, ← mul_assoc, ← Nat.cast_mul, hk,
      ← min_mul_of_nonneg _ _ hd.le, ← Nat.cast_min, ← hk] at hclamp
    rw [encodedFields_man_of_whole hclamp, denomExact_eq_mul_pow hle, ← mul_assoc, ← Nat.cast_mul, hk,
      ← min_mul_of_nonneg _ _ hd.le, ← Nat.cast_min]

end Redecode

/-- A decode, the channels fed to the encode of the same codec, the encode, the words fed back, and the decode. -/
theorem exec_decode_encode_decode {enc dec : Instr} (h : Paired enc dec) (s : State) :
    ∃ t u v, exec dec s = .next t ∧ exec enc t.feedChannels = .next u ∧ exec dec u.feedWords = .next v ∧
      t.outs = decodeOutputs dec.codec dec.precision s.ins ∧
      ∃ k, v.outs = decodeOutputs dec.codec dec.precision k ∧
        ∀ l : Lane, (decodedFields dec.codec k).sgn l = (decodedFields dec.codec s.ins).sgn l ∧
          (decodedFields dec.codec k).man l * denomExact dec.codec.params (decodedFields dec.codec k).e =
            min ((decodedFields dec.codec s.ins).man l * denomExact dec.codec.params (decodedFields dec.codec s.ins).e)
              (gridMax dec.codec) := by
  obtain ⟨t, ht⟩ : ∃ t, t = s.settle (decodeOutputs dec.codec dec.precision s.ins) := ⟨_, rfl⟩
  obtain ⟨u, v, hu, hv, k, hvouts, hfields⟩ := exec_encode_decode h t.feedChannels
  obtain ⟨henc, hdec, hcodec, hprec⟩ := h
  rw [hcodec, hprec] at hvouts hfields
  have ht' : exec dec s = .next t := by rw [exec_eq_next, operationOutputs_of_decode hdec, ht]
  refine ⟨t, u, v, ht', hu, hv, by rw [ht, State.settle_outs], k, hvouts, ?_⟩
  rw [hfields]
  exact encodedFields_of_decodeOutputs fun l => by rw [State.feedChannels_port, ht, State.settle_outs]

end Sys2Proof.Machine
end

section
/-! PROOFS. The statements of 40_numeric_engine.md. -/

namespace Sys2Proof.Machine.NumericEngine

/-- Settles O45: the decoded lane is within half a denominator of the operand clamped to min(K, GMAX), and the clamp is
away from the operand by what the operand is above it. -/
theorem roundTripAccuracy : Obligations.RoundTripAccuracy := by
  intro enc dec hpair s
  obtain ⟨t, u, ht, hu, j, houts, hfields⟩ := exec_encode_decode hpair s
  refine ⟨t, u, ht, hu, fun l => ?_⟩
  intro c p b v error half hfin hs
  have hnear := abs_decodedValue_sub_le hfin hs
  have hhalf : half = denomExact c.params (encodedFields c p s.ins).e / 2 :=
    (half_denomExact c.params _).symm
  have hdecoded : ieeeValue p (u.outs.port l).toNat = decodedValue c.params (encodedFields c p s.ins).e
      ((encodedFields c p s.ins).sgn l) ((encodedFields c p s.ins).man l) := by
    rw [houts, ieeeValue_decodeOutputs, hfields]
  rw [← hdecoded, ← hhalf] at hnear
  have hv : v = applySign (signOf p b) (ieeeMagnitude p b) := rfl
  rw [abs_ieeeValue p b]
  refine ⟨fun hle => ?_, fun hgt => ?_⟩
  · rw [min_eq_left hle] at hnear
    exact hnear
  · rw [min_eq_right hgt.le] at hnear
    have hclamp : |applySign (signOf p b) (gridMax c) - v| = ieeeMagnitude p b - gridMax c := by
      rw [hv, abs_applySign_sub, abs_sub_comm, abs_of_pos (sub_pos.mpr hgt)]
    have htri := abs_sub_le (ieeeValue p (u.outs.port l).toNat) (applySign (signOf p b) (gridMax c)) v
    linarith

/-- Settles O46: the decode reads the encoded fields, whose value is on the grid and whose sign is Condition's. -/
theorem roundTripValues : Obligations.RoundTripValues := by
  intro enc dec hpair s
  obtain ⟨t, u, ht, hu, j, houts, hfields⟩ := exec_encode_decode hpair s
  refine ⟨t, u, ht, hu, fun l => ?_⟩
  dsimp only
  rw [houts, abs_ieeeValue, ieeeMagnitude_decodeOutputs, ieeeValue_decodeOutputs, isZero_decodeOutputs_iff,
    signOf_decodeOutputs, hfields, encodedFields_sgn_iff]
  refine ⟨isFinite_decodeOutputs _ _ _ _, rfl, encodedFields_mul_le_gridMax _ _ _ _, ?_⟩
  tauto

/-- Settles O47: each lane comes back with its sign and its magnitude up to min(K, GMAX), which is GMAX but in UR9E2,
and a pattern is its sign and its magnitude. -/
theorem redecodeIsIdentity : Obligations.RedecodeIsIdentity := by
  intro enc dec hpair s
  obtain ⟨t, u, v, ht, hu, hv, htouts, k, hvouts, hlane⟩ := exec_decode_encode_decode hpair s
  refine ⟨t, u, v, ht, hu, hv, ?_⟩
  intro p
  have hsign (l : Lane) : signOf p (v.outs.port l).toNat = signOf p (t.outs.port l).toNat := by
    rw [hvouts, htouts, signOf_decodeOutputs, signOf_decodeOutputs, (hlane l).1]
  have hmag (l : Lane) : ieeeMagnitude p (v.outs.port l).toNat =
      min (ieeeMagnitude p (t.outs.port l).toNat) (gridMax dec.codec) := by
    rw [hvouts, htouts, ieeeMagnitude_decodeOutputs, ieeeMagnitude_decodeOutputs, (hlane l).2]
  constructor
  · intro hone
    have hunclamped (l : Lane) : ieeeMagnitude p (t.outs.port l).toNat ≤ gridMax dec.codec := by
      by_cases hc : dec.codec = .ur9e2
      · rw [← abs_ieeeValue, hc, gridMax_ur9e2]; exact hone hc l
      · rw [htouts, ieeeMagnitude_decodeOutputs, gridMax_of_ne_ur9e2 hc]
        exact mul_denomExact_le_gmax (decodedFields_e_le _ _) (decodedFields_man_le _ _ _)
    rw [hvouts, htouts]
    refine decodeOutputs_ext fun l => BitVec.eq_of_toNat_eq ?_
    have hmag' := (hmag l).trans (min_eq_left (hunclamped l))
    have hsign' := hsign l
    rw [hvouts, htouts] at hmag' hsign'
    exact pattern_ext (decodeOutputs_port_lt _ _ _ _) (decodeOutputs_port_lt _ _ _ _) hsign' hmag'
  · intro hc l
    dsimp only
    rw [ieeeValue, hsign, hmag, abs_ieeeValue, hc, gridMax_ur9e2]

/-- Settles O53: the clamped lane is min(K, GMAX), which every exponent holds exactly. -/
theorem topMagnitudesSaturate : Obligations.TopMagnitudesSaturate := by
  intro c p i l
  refine ⟨fun hs hmag => ?_, encodedFields_of_dropped⟩
  have hnan : ¬ IsNaN p (laneBits p i l) := by
    rcases hmag with hinf | ⟨hfin, -⟩
    · exact fun hnan => hnan.2 hinf.2
    · exact fun hnan => hfin hnan.1
  rw [decodedValue, encodedFields_mul_of_magAtLeast hs hmag, encodedFields_sgn_of_kept hnan hs]

/-- Settles O28: the fields are quotients and remainders, and the unit is the smallest subnormal. -/
theorem classifyExact : Obligations.ClassifyExact := by
  intro p b hb
  dsimp only
  rw [← expOf_eq_div_mod, ← fracOf_eq_mod]
  obtain ⟨hnan, hinf, hfin⟩ := classify_cls_iff p b
  refine ⟨hnan, hinf, ?_, fun hcls => ?_⟩
  · rw [classify_sign]; exact signOf_iff hb
  · rw [classify_of_finite (hfin.mp hcls), magValue_finiteMag, ieeeMagnitude]
    push_cast; rfl

/-- Settles O29: each branch of Condition is a branch of R64. -/
theorem conditionExact : Obligations.ConditionExact := fun c p b =>
  ⟨condition_eq_exact c p b, magValue_nonneg p _, magValue_le_clampConstant (condition_mag_le c p b)⟩

/-- Settles O39: the selector and the quantizer are exact, at the largest of the conditioned magnitudes. -/
theorem encodeFieldsExact : Obligations.EncodeFieldsExact := by
  intro c p bx bY bz
  simp only [← condition_eq_exact, ← magValue_max]
  have he : ((encodeFields c p bx bY bz).e : ℤ) = sharedExp c.params p
      (max (condition c p bx).mag (max (condition c p bY).mag (condition c p bz).mag)) := selectExponent_e_cast _ _ _
  refine ⟨he.trans (sharedExp_eq_exact _ _ _), ?_, ?_, ?_, rfl, rfl, rfl⟩ <;>
    rw [← sharedExp_eq_exact] <;> exact quantize_eq_exact _ _ _ _

/-- An encode is a function of the exact conditioned channels, whatever their precision. -/
theorem encodeFields_congr {c : Codec} {p q : Precision} {bx bY bz bx' bY' bz' : Nat}
    (hx : Machine.conditionExact c p bx = Machine.conditionExact c q bx')
    (hy : Machine.conditionExact c p bY = Machine.conditionExact c q bY')
    (hz : Machine.conditionExact c p bz = Machine.conditionExact c q bz') :
    encodeFields c p bx bY bz = encodeFields c q bx' bY' bz' := by
  obtain ⟨he, hmx, hmy, hmz, hsx, hsy, hsz⟩ := encodeFieldsExact c p bx bY bz
  obtain ⟨he', hmx', hmy', hmz', hsx', hsy', hsz'⟩ := encodeFieldsExact c q bx' bY' bz'
  simp only [hx, hy, hz] at he hmx hmy hmz hsx hsy hsz
  exact fields_ext (Nat.cast_inj.mp (he.trans he'.symm)) (Nat.cast_inj.mp (hmx.trans hmx'.symm))
    (Nat.cast_inj.mp (hmy.trans hmy'.symm)) (Nat.cast_inj.mp (hmz.trans hmz'.symm)) (hsx.trans hsx'.symm)
    (hsy.trans hsy'.symm) (hsz.trans hsz'.symm)

/-- Settles O48: an encode is a function of the exact conditioned lanes, whatever the precision. -/
theorem precisionsAgreeOnEncode : Obligations.PrecisionsAgreeOnEncode := by
  intro s s' h
  refine ⟨_, _, exec_eq_next .encS18E7F32 s, exec_eq_next .encS18E7F64 s', ?_⟩
  have hfields : encodedFields .s18e7 .binary32 s.ins = encodedFields .s18e7 .binary64 s'.ins :=
    encodeFields_congr (conditionExact_congr .s18e7 (h .x)) (conditionExact_congr .s18e7 (h .y))
      (conditionExact_congr .s18e7 (h .z))
  rw [State.settle_outs, State.settle_outs, operationOutputs_of_encode rfl, operationOutputs_of_encode rfl]
  exact congrArg (fun f => wordOutputs (packWord Codec.s18e7.layout f .A) (packWord Codec.s18e7.layout f .B)) hfields

/-- Settles O50: a lane is quantized at the denominator of the stored exponent. -/
theorem lanesShareOnlyExponent : Obligations.LanesShareOnlyExponent := by
  intro c p i j l
  refine ⟨fun hmax => ?_, fun hbits => ⟨?_, fun he => ?_⟩⟩
  · rw [encodedFields_e, encodedFields_e, hmax]
  · rw [encodedFields_sgn, encodedFields_sgn, hbits]
  · rw [encodedFields_man_eq, encodedFields_man_eq, he, laneMag, laneMag, hbits]

/-- Settles O54: a NaN is conditioned to 0, and a subnormal lies below half of every denominator. -/
theorem tinyAndNaNChannelsEncodeToZero : Obligations.TinyAndNaNChannelsEncodeToZero := by
  intro c p i l
  refine ⟨fun hnan => ?_, fun hsub => ⟨?_, fun hc => ?_⟩⟩
  · have hcond := condition_of_nan c hnan
    rw [encodedFields_sgn, encodedFields_man_eq, laneMag, hcond]
    exact ⟨quantize_zero _ _ _, rfl⟩
  · have hfin : IsFinite p (laneBits p i l) := by rw [IsFinite, hsub.1]; cases p <;> decide
    rw [encodedFields_man_eq]
    exact quantize_eq_zero ((magValue_condition_le c hfin).trans_lt (ieeeMagnitude_subnormal_lt c _ hsub))
  · have hnan : ¬ IsNaN p (laneBits p i l) := fun hnan => by
      rw [IsNaN, hsub.1] at hnan; cases p <;> exact absurd hnan.1 (by decide)
    rw [encodedFields_sgn, condition_of_kept hnan (.inl hc)]

/-- Settles O30: `e0` is written with the bounds of `FloorLog2`. -/
theorem startExponentExact : Obligations.StartExponentExact := fun f p n =>
  ⟨startExp_nonneg f p n, startExp_zero f p, fun hn =>
    ⟨(floorLog2_bounds p hn).1, (floorLog2_bounds p hn).2, startExp_of_pos f p hn⟩⟩

/-- Settles O31: RHU is the floor, and the magnitude lies below the span of `e0`. -/
theorem startMantissaBound : Obligations.StartMantissaBound := fun f p n =>
  ⟨startMantissa_eq_exact f p n, startMantissa_le f p n⟩

/-- Settles O32: RHU reaches `mantissa_values` from the tie up. -/
theorem carryFiresExactly : Obligations.CarryFiresExactly := fun f p n =>
  ⟨carriedExp_of_carry, carriedExp_of_no_carry, startMantissa_eq_iff f p n⟩

/-- Settles O33: each step of the selector is its rational one, and the denominator is the exponent field's. -/
theorem selectExponentExact : Obligations.SelectExponentExact := by
  intro f p n
  refine ⟨?_, ?_, selectExponent_e_le f p n, fun hrange => ?_⟩
  · rw [selectExponent_e_cast, sharedExp_eq_exact]
  · rw [selectExponent_denomExp, two_zpow_denomExp]
  · rw [selectExponent_denomExp, two_zpow_denomExp, denomExact_selectExponent hrange]

/-- Settles O34: the exponent is the least in range below whose tie the magnitude lies, and in UR9E2 K lies below the
tie of exponent 2. -/
theorem selectorRange : Obligations.SelectorRange := by
  intro c p n hn
  refine ⟨selectExponent_e_le _ p n, fun hsmall => ?_, ?_⟩
  · have htop : 0 < c.params.maxValidBiasedExp := by cases c <;> decide
    rw [← Nat.le_zero, selectExponent_e_le_iff htop, carryBound, denomExact, Nat.cast_zero, zero_sub]
    exact hsmall
  · rintro rfl
    rw [selectExponent_e_le_iff (by decide)]
    refine (magValue_le_clampConstant hn).trans_lt ?_
    norm_num [carryBound, denomExact, FormatParams.mantissaValues, FormatParams.maxValidBiasedExp,
      FormatParams.expBias, Codec.params, Codec.clampConstant]

/-- Settles O35: the tie of the top exponent lies above K in every codec but UR14E3. -/
theorem saturationBindsOnlyUR14E3 : Obligations.SaturationBindsOnlyUR14E3 := fun _ _ _ => carriedExp_saturates_iff

/-- Settles O36: whole quotients, and half a unit added before the truncation. -/
theorem rhuIsFloorOfHalfUp : Obligations.RhuIsFloorOfHalfUp := rhu_eq_floor

/-- Settles O37: RHU is exact, and a magnitude in range lies below the tie of its exponent. -/
theorem quantizeExact : Obligations.QuantizeExact := by
  refine ⟨quantize_eq_exact, fun f p c n _ hcn hrange => ?_⟩
  rw [selectExponent_denomExp]
  exact rhu_le_maxMantissa (((magValue_le_iff p c n).mpr hcn).trans_lt (magValue_lt_carryBound hrange))

/-- Settles O38: the limit clamps; a carry doubles the denominator; and in UR14E3 the grid maximum, which rounds to the
limit, is what the limit clamps a channel to. -/
theorem quantizerProperties : Obligations.QuantizerProperties := by
  refine ⟨quantize_le, fun f p n hf => quantize_of_carry hf.2.1.1, fun p c n hcn hn => ?_⟩
  intro f grid hsat
  have hgrid : ur14e3Grid p ≤ n := by
    obtain ⟨-, htie⟩ := (carriedExp_saturates_iff hn).mp hsat
    rw [← magValue_le_iff p, magValue_ur14e3Grid p]
    exact le_trans (by norm_num) htie
  have htop : (selectExponent f p n).e = 7 := selectExponent_ur14e3_top hgrid
  have hclamped : (selectExponent f p (min n grid)).e = 7 := selectExponent_ur14e3_top (le_min hgrid le_rfl)
  have hrhu : rhu grid p.unitExp (denomExp f 7) = f.maxMantissa := rhu_ur14e3Grid p
  have hmono : Monotone fun m => rhu m p.unitExp (denomExp f 7) := fun _ _ h => rhu_mono h _ _
  rw [selectExponent_denomExp, selectExponent_denomExp, htop, hclamped]
  refine ⟨rfl, rfl, ?_, fun hc => ?_⟩
  · rw [quantize, ← hrhu]
    exact hmono.map_min.symm
  · exact min_eq_right (Nat.le_of_succ_le (le_rhu_of_ur14e3_tie hc.le))

/-- Settles O43: the fraction and its leading bit are the mantissa, and the exponent takes back the shift. -/
theorem toIeeeExact : Obligations.ToIeeeExact := by
  refine ⟨fun p s m t hm hlt hpos hexp => ?_, fun p s t => ?_⟩
  · have hfit := ieeeExponent_toNat_lt hexp
    have hsign := signOf_toIeee s fun _ => hfit
    refine ⟨toIeee_lt s fun _ => hfit, ?_, hsign, ?_⟩
    · rw [expOf_toIeee s hm.ne' hfit, Int.toNat_of_nonneg hpos.le]
    · rw [ieeeValue, hsign, ieeeMagnitude_toIeee s hm.ne' hlt hpos hexp]
  · have hzero : (0 : Nat) ≠ 0 → (ieeeExponent p 0 t).toNat < 2 ^ p.expFieldBits := fun h => absurd rfl h
    exact ⟨toIeee_lt s hzero, isZero_toIeee_zero p s t, signOf_toIeee s hzero⟩

/-- Settles O44: the fields of a word fit their codec, whose exponents are all in the normal range. -/
theorem decodedChannelsExact : Obligations.DecodedChannelsExact := by
  intro op hdir s
  refine ⟨_, exec_eq_next op s, fun l => ?_⟩
  rw [State.settle_outs, operationOutputs_of_decode hdir]
  have hzero := isZero_decodeOutputs_iff op.codec op.precision s.ins l
  obtain ⟨hlt, hrange⟩ := decodeOutputs_port_decoded op.codec op.precision s.ins l
  refine ⟨hlt, signOf_decodeOutputs _ _ _ _, fun hc => decodedFields_sgn_unsigned hc _ _,
    ieeeValue_decodeOutputs _ _ _ _, hzero.mpr, fun hman => ?_⟩
  have hnormal := hrange.resolve_left (mt hzero.mp hman)
  cases hp : op.precision <;> rw [hp] at hnormal <;> exact hnormal

/-- Settles O49: both patterns have the sign and the value of the same fields. -/
theorem precisionsAgreeOnDecode : Obligations.PrecisionsAgreeOnDecode := by
  intro s
  refine ⟨_, _, exec_eq_next .decS18E7F32 s, exec_eq_next .decS18E7F64 s, fun l => ?_⟩
  rw [State.settle_outs, State.settle_outs, operationOutputs_of_decode rfl, operationOutputs_of_decode rfl]
  exact ⟨(signOf_decodeOutputs .s18e7 .binary32 _ l).trans (signOf_decodeOutputs .s18e7 .binary64 _ l).symm,
    (ieeeValue_decodeOutputs .s18e7 .binary32 _ l).trans (ieeeValue_decodeOutputs .s18e7 .binary64 _ l).symm⟩

/-- Settles O57: epsilon and GMAX are the decoded values at the ends of the ranges, and decoding is monotone. -/
theorem derivedConstantsClosedForms : Obligations.DerivedConstantsClosedForms := by
  rintro f ⟨⟨hE, -⟩, -, -⟩
  refine ⟨rfl, rfl, f.expBias_eq hE, rfl, f.maxExp_eq hE, rfl, rfl, ?_, ?_, ?_, ?_, ?_⟩
  · rw [f.epsilon_eq, denomExact]; congr 1; ring
  · rw [f.epsilon_eq, decodedValue, Nat.cast_one, one_mul, Nat.cast_zero]; rfl
  · rw [f.gmax_eq, denomExact, f.maxExp_cast]
  · exact f.gmax_eq.symm
  · exact fun e m => mul_denomExact_le_gmax

/-- Settles O55: the tables, K as a pattern in both precisions, and K against GMAX. -/
theorem codecConstants : Obligations.CodecConstants := by
  intro c
  refine ⟨codec_integerConstants c, Prod.ext ?_ ?_, ?_, classify_clampConstant_binary32 c, _, ?_,
    classify_clampConstant_binary64 c⟩
  · rw [codec_epsilon]; cases c <;> rfl
  · rw [codec_gmax]; cases c <;> rfl
  · exact clampConstant_eq_gmax_iff c
  · cases c <;> decide

/-- Settles O56: the constraints of R56 are the test `make` does. -/
theorem invalidParametersRefused : Obligations.InvalidParametersRefused := by
  refine ⟨fun E M hE hE' hM hM' hEM => if_pos ⟨⟨hE, hE'⟩, ⟨hM, hM'⟩, hEM⟩, fun E M h => if_neg ?_, ?_⟩
  · rintro ⟨⟨hE, hE'⟩, ⟨hM, hM'⟩, hEM⟩
    exact h ⟨hE, hE', hM, hM', hEM⟩
  · intro c; cases c <;> rfl

/-- Settles O58: K over GMAX, from the table. -/
theorem normalisationMultipliers : Obligations.NormalisationMultipliers := by
  intro c
  rw [Codec.normMultiplier, codec_gmax]
  cases c <;> norm_num [Codec.clampConstant]

end Sys2Proof.Machine.NumericEngine
end

section
/-! PROOFS. The statements of 41_encode.md. A value that fits its width needs no mask, so `Pack` is the same as placing each
field (R85): once for every codec, then written out for each layout as R86 to R92 do. -/

namespace Sys2Proof.Machine

/-- A slot that carries the whole of its field, not a slice of it (R50). -/
abbrev HoldsWholeField (l : Layout) (s : Slot) : Prop := s.low = 0 ∧ s.width = l.fieldWidth s.field

/-- What a slot adds to its word: the field with no mask, or the slice of a split field. -/
def placedValue (l : Layout) (f : Fields) (s : Slot) : Nat :=
  if HoldsWholeField l s then f.get s.field else slotValue f s

/-- The OR of a list of values, associated to the left. -/
def orAll : List Nat → Nat
  | [] => 0
  | v :: vs => vs.foldl (· ||| ·) v

/-- A word as the rules of the operations write it: the OR of its placed slots; `pack_eq_placeFields` ties it to
`pack`. -/
def placeFields (l : Layout) (f : Fields) (w : WordName) : Nat :=
  orAll ((l.slots.filter (fun s => s.word = w)).map fun s => placedValue l f s <<< s.offset)

theorem foldl_or_zero_eq_orAll (vs : List Nat) : vs.foldl (· ||| ·) 0 = orAll vs := by
  cases vs with
  | nil => rfl
  | cons v vs => rw [List.foldl_cons, Nat.zero_or]; rfl

/-- The packer's mask is no more than the slicing: a whole field fits its slot (R73, R76, R85). -/
theorem slotValue_eq_placedValue {c : Codec} {f : Fields} (hf : f.InRange c) (s : Slot) :
    slotValue f s = placedValue c.layout f s := by
  rw [placedValue]
  split
  next hwhole =>
    obtain ⟨hlow, hwidth⟩ := hwhole
    rw [slotValue, hlow, hwidth]
    exact bf_zero_of_lt (get_lt_of_inRange hf s.field)
  next => rfl

theorem packWord_eq_placeFields {c : Codec} {f : Fields} (hf : f.InRange c) (w : WordName) :
    packWord c.layout f w = placeFields c.layout f w := by
  simp only [packWord, placeFields, slotValue_eq_placedValue hf, ← foldl_or_zero_eq_orAll, List.foldl_map]

/-- `Pack` is the same as placing each field (R85). -/
theorem pack_eq_placeFields {c : Codec} {f : Fields} (hf : f.InRange c) :
    pack c.layout f = (placeFields c.layout f .A, placeFields c.layout f .B) :=
  Prod.ext (packWord_eq_placeFields hf .A) (packWord_eq_placeFields hf .B)

/-- A sign stored next to its mantissa is placed with it (R87, R88). -/
theorem signMantissa_shiftLeft (s m k off : Nat) : ((s <<< k) ||| m) <<< off = (s <<< (k + off)) ||| (m <<< off) := by
  rw [Nat.shiftLeft_or_distrib, ← Nat.shiftLeft_add]

theorem pack_u9e5 {f : Fields} (hf : f.InRange .u9e5) :
    pack (Codec.layout .u9e5) f = ((f.e <<< 27) ||| (f.mz <<< 18) ||| (f.my <<< 9) ||| f.mx, 0) :=
  pack_eq_placeFields hf

theorem pack_s8e5 {f : Fields} (hf : f.InRange .s8e5) :
    pack (Codec.layout .s8e5) f =
      ((f.e <<< 27) ||| (((f.sz.toNat <<< 8) ||| f.mz) <<< 18) ||| (((f.sy.toNat <<< 8) ||| f.my) <<< 9) |||
        ((f.sx.toNat <<< 8) ||| f.mx), 0) := by
  simp only [signMantissa_shiftLeft, ← Nat.or_assoc]
  exact pack_eq_placeFields hf

theorem pack_ur9e2 {f : Fields} (hf : f.InRange .ur9e2) :
    pack (Codec.layout .ur9e2) f =
      ((f.e <<< 30) ||| (((f.sz.toNat <<< 9) ||| f.mz) <<< 20) ||| (((f.sy.toNat <<< 9) ||| f.my) <<< 10) |||
        ((f.sx.toNat <<< 9) ||| f.mx), 0) := by
  simp only [signMantissa_shiftLeft, ← Nat.or_assoc]
  exact pack_eq_placeFields hf

theorem pack_s13e6 {f : Fields} (hf : f.InRange .s13e6) :
    pack (Codec.layout .s13e6) f =
      ((f.e <<< 26) ||| (f.my <<< 13) ||| f.mx,
       (f.sz.toNat <<< 15) ||| (f.sy.toNat <<< 14) ||| (f.sx.toNat <<< 13) ||| f.mz) :=
  pack_eq_placeFields hf

theorem pack_ur14e3 {f : Fields} (hf : f.InRange .ur14e3) :
    pack (Codec.layout .ur14e3) f =
      ((bf f.e 0 1 <<< 31) ||| (f.sz.toNat <<< 30) ||| (f.sy.toNat <<< 29) ||| (f.sx.toNat <<< 28) ||| (f.my <<< 14) ||| f.mx,
       (bf f.e 1 2 <<< 14) ||| f.mz) :=
  pack_eq_placeFields hf

theorem pack_s18e7 {f : Fields} (hf : f.InRange .s18e7) :
    pack (Codec.layout .s18e7) f =
      ((bf f.my 0 14 <<< 18) ||| f.mx,
       (f.e <<< 25) ||| (f.sz.toNat <<< 24) ||| (f.sy.toNat <<< 23) ||| (f.sx.toNat <<< 22) ||| (f.mz <<< 4) |||
         bf f.my 14 4) :=
  pack_eq_placeFields hf

/-- An encode completes with the packed words of its fields, which fit its codec. -/
theorem exec_encode_of_pack {op : Instr} (hdir : op.direction = .encode) {words : Fields → Nat × Nat}
    (hpack : ∀ {f : Fields}, f.InRange op.codec → pack op.codec.layout f = words f) (s : State) :
    exec op s = .next (s.settle (wordOutputs (words (encodedFields op.codec op.precision s.ins)).1
      (words (encodedFields op.codec op.precision s.ins)).2)) := by
  rw [exec_eq_next, operationOutputs_of_encode hdir, encodeOutputs, hpack (encodedFields_inRange _ _ _)]

/-- Settles O14: the words of R86, by `pack_u9e5`. -/
theorem encodeU9E5Result : Obligations.EncodeU9E5Result :=
  exec_encode_of_pack (op := .encU9E5) rfl pack_u9e5

/-- Settles O15: the words of R87, by `pack_s8e5`. -/
theorem encodeS8E5Result : Obligations.EncodeS8E5Result :=
  exec_encode_of_pack (op := .encS8E5) rfl pack_s8e5

/-- Settles O16: the words of R88, by `pack_ur9e2`. -/
theorem encodeUR9E2Result : Obligations.EncodeUR9E2Result :=
  exec_encode_of_pack (op := .encUR9E2) rfl pack_ur9e2

/-- Settles O17: the words of R89, by `pack_s13e6`. -/
theorem encodeS13E6Result : Obligations.EncodeS13E6Result :=
  exec_encode_of_pack (op := .encS13E6) rfl pack_s13e6

/-- Settles O18: the words of R90, by `pack_ur14e3`. -/
theorem encodeUR14E3Result : Obligations.EncodeUR14E3Result :=
  exec_encode_of_pack (op := .encUR14E3) rfl pack_ur14e3

/-- Settles O19: the words of R91, by `pack_s18e7`. -/
theorem encodeS18E7F32Result : Obligations.EncodeS18E7F32Result :=
  exec_encode_of_pack (op := .encS18E7F32) rfl pack_s18e7

/-- Settles O20: the words of R92, by `pack_s18e7`, as in binary32. -/
theorem encodeS18E7F64Result : Obligations.EncodeS18E7F64Result :=
  exec_encode_of_pack (op := .encS18E7F64) rfl pack_s18e7

end Sys2Proof.Machine
end

section
/-! PROOFS. The statements of 42_decode.md. The slices of a field are stored from the lowest up with no gap, so the OR of
shifts that puts them together (R93) is the concatenation the rules write (R50): once for every codec, then written out
for each layout as R94 to R100 do. -/

namespace Sys2Proof.Machine

/-- Slices of one field, each starting where the one before it ends, the first at bit `k`. -/
def SlicesFrom (k : Nat) : List Slot → Prop
  | [] => True
  | s :: slots => s.low = k ∧ SlicesFrom (k + s.width) slots

/-- What `Unpack` extracts for a slot, before it is shifted to its place in the field (R93). -/
def extractedSlice (a b : Nat) (s : Slot) : Nat := bf (wordValue a b s.word) s.offset s.width

/-- Slices put together, the lowest first in the list: the ones after it stand on its left. -/
def joinSlices (a b : Nat) : List Slot → Nat
  | [] => 0
  | [s] => extractedSlice a b s
  | s :: slots => joinSlices a b slots * 2 ^ s.width + extractedSlice a b s

/-- A field as the rules of the operations cut it from the words; `unpackField_eq_cutField` ties it to `unpackField`. -/
def cutField (l : Layout) (a b : Nat) (n : FieldName) : Nat :=
  joinSlices a b (l.slots.filter (fun s => s.field = n))

theorem joinSlices_cons (a b : Nat) (s : Slot) (slots : List Slot) :
    joinSlices a b (s :: slots) = joinSlices a b slots * 2 ^ s.width + extractedSlice a b s := by
  cases slots with
  | nil => rw [joinSlices, joinSlices, Nat.zero_mul, Nat.zero_add]
  | cons t slots => rfl

/-- ORing slices that start at bit `k` into a value below `2^k` adds them `k` bits up. -/
theorem foldl_or_extractedSlice {slots : List Slot} {k : Nat} (hslots : SlicesFrom k slots) (a b : Nat) {acc : Nat}
    (hacc : acc < 2 ^ k) :
    slots.foldl (fun acc s => acc ||| extractedSlice a b s <<< s.low) acc = acc + joinSlices a b slots * 2 ^ k := by
  induction slots generalizing k acc with
  | nil => rw [joinSlices, List.foldl_nil, Nat.zero_mul, Nat.add_zero]
  | cons s slots ih =>
    obtain ⟨rfl, hrest⟩ := hslots
    have hor : acc ||| extractedSlice a b s <<< s.low = acc + extractedSlice a b s * 2 ^ s.low := by
      rw [Nat.or_comm, ← Nat.shiftLeft_add_eq_or_of_lt hacc, Nat.shiftLeft_eq, Nat.add_comm]
    have hlt : acc ||| extractedSlice a b s <<< s.low < 2 ^ (s.low + s.width) :=
      Nat.or_lt_two_pow (hacc.trans_le (Nat.pow_le_pow_right Nat.two_pos (Nat.le_add_right _ _)))
        (bf_shiftLeft_lt _ _ (Nat.add_comm _ _).le)
    rw [List.foldl_cons, ih hrest hlt, hor, joinSlices_cons]
    ring

/-- Every codec's layout lists the slices of a field from the lowest up, with no gap (R50). -/
theorem layout_slicesFrom (c : Codec) (n : FieldName) : SlicesFrom 0 (c.layout.slots.filter (fun s => s.field = n)) := by
  cases c <;> cases n <;> simp [Codec.layout, SlicesFrom]

/-- `Unpack` reads a field as the concatenation of its slices (R50, R93). -/
theorem unpackField_eq_cutField (c : Codec) (a b : Nat) (n : FieldName) :
    unpackField c.layout a b n = cutField c.layout a b n := by
  refine (foldl_or_extractedSlice (layout_slicesFrom c n) a b (Nat.two_pow_pos 0)).trans ?_
  rw [Nat.zero_add, Nat.pow_zero, Nat.mul_one, cutField]

/-- `Unpack` is the same as cutting each field (R93). -/
theorem unpack_eq_cutField (c : Codec) (a b : Nat) :
    unpack c.layout a b =
      { e := cutField c.layout a b .e
        mx := cutField c.layout a b .mx, my := cutField c.layout a b .my, mz := cutField c.layout a b .mz
        sx := cutField c.layout a b .sx == 1, sy := cutField c.layout a b .sy == 1
        sz := cutField c.layout a b .sz == 1 } := by
  simp only [unpack, unpackField_eq_cutField]

theorem unpack_u9e5 (a b : Nat) :
    unpack (Codec.layout .u9e5) a b =
      { e := bf a 27 5
        mz := bf a 18 9, my := bf a 9 9, mx := bf a 0 9
        sz := false, sy := false, sx := false } :=
  unpack_eq_cutField .u9e5 a b

theorem unpack_s8e5 (a b : Nat) :
    unpack (Codec.layout .s8e5) a b =
      { e := bf a 27 5
        sz := bf a 26 1 == 1, mz := bf a 18 8
        sy := bf a 17 1 == 1, my := bf a 9 8
        sx := bf a 8 1 == 1, mx := bf a 0 8 } :=
  unpack_eq_cutField .s8e5 a b

theorem unpack_ur9e2 (a b : Nat) :
    unpack (Codec.layout .ur9e2) a b =
      { e := bf a 30 2
        sz := bf a 29 1 == 1, mz := bf a 20 9
        sy := bf a 19 1 == 1, my := bf a 10 9
        sx := bf a 9 1 == 1, mx := bf a 0 9 } :=
  unpack_eq_cutField .ur9e2 a b

theorem unpack_s13e6 (a b : Nat) :
    unpack (Codec.layout .s13e6) a b =
      { e := bf a 26 6
        my := bf a 13 13, mx := bf a 0 13
        sz := bf b 15 1 == 1, sy := bf b 14 1 == 1, sx := bf b 13 1 == 1
        mz := bf b 0 13 } :=
  unpack_eq_cutField .s13e6 a b

theorem unpack_ur14e3 (a b : Nat) :
    unpack (Codec.layout .ur14e3) a b =
      { e := bf b 14 2 * 2 + bf a 31 1
        sz := bf a 30 1 == 1, sy := bf a 29 1 == 1, sx := bf a 28 1 == 1
        my := bf a 14 14, mx := bf a 0 14
        mz := bf b 0 14 } :=
  unpack_eq_cutField .ur14e3 a b

theorem unpack_s18e7 (a b : Nat) :
    unpack (Codec.layout .s18e7) a b =
      { e := bf b 25 7
        sz := bf b 24 1 == 1, sy := bf b 23 1 == 1, sx := bf b 22 1 == 1
        mz := bf b 4 18, my := bf b 0 4 * 2 ^ 14 + bf a 18 14, mx := bf a 0 18 } :=
  unpack_eq_cutField .s18e7 a b

/-- The pattern of a decoded channel with the bias and M taken from the exponent at once, as R94 to R100 write it. -/
theorem decodedChannel_eq_toIeee (c : Codec) (p : Precision) (f : Fields) (s : Bool) (m : Nat) :
    decodedChannel c p f s m = toIeee p s m (f.e - (c.params.expBias + c.params.manBits : ℕ)) := by
  rw [decodedChannel, denomExp, Nat.cast_add, sub_sub]

/-- A decode completes with the patterns of the fields unpacked from the word ports. -/
theorem exec_decode_of_unpack {op : Instr} (hdir : op.direction = .decode) {fields : Nat → Nat → Fields}
    (hunpack : ∀ a b, unpack op.codec.layout a b = fields a b) (s : State) :
    let f := fields s.ins.inA.toNat s.ins.inB.toNat
    let t : ℤ := f.e - (op.codec.params.expBias + op.codec.params.manBits : ℕ)
    exec op s = .next (s.settle (channelOutputs (toIeee op.precision f.sx f.mx t) (toIeee op.precision f.sy f.my t)
      (toIeee op.precision f.sz f.mz t))) := by
  simp only [exec_eq_next, operationOutputs_of_decode hdir, decodeOutputs, decodedFields, hunpack, decodedChannel_eq_toIeee]

/-- Settles O41: `unpack_pack`, and each packed word stays inside the bits of its slots. -/
theorem unpackPack : Obligations.UnpackPack := fun c f hf =>
  have hwords := packWord_lt (layout_slotsInside c) f
  ⟨unpack_pack hf, hwords .A, hwords .B⟩

/-- Settles O25: the fields of R98, by `unpack_ur14e3`. -/
theorem decodeUR14E3Result : Obligations.DecodeUR14E3Result :=
  exec_decode_of_unpack (op := .decUR14E3) rfl unpack_ur14e3

/-- Settles O26: the fields of R99, by `unpack_s18e7`. -/
theorem decodeS18E7F32Result : Obligations.DecodeS18E7F32Result :=
  exec_decode_of_unpack (op := .decS18E7F32) rfl unpack_s18e7

/-- Settles O27: the fields of R100, by `unpack_s18e7`, as in binary32. -/
theorem decodeS18E7F64Result : Obligations.DecodeS18E7F64Result :=
  exec_decode_of_unpack (op := .decS18E7F64) rfl unpack_s18e7

/-- Settles O21: the fields of R94, by `unpack_u9e5`. -/
theorem decodeU9E5Result : Obligations.DecodeU9E5Result :=
  exec_decode_of_unpack (op := .decU9E5) rfl unpack_u9e5

/-- Settles O22: the fields of R95, by `unpack_s8e5`. -/
theorem decodeS8E5Result : Obligations.DecodeS8E5Result :=
  exec_decode_of_unpack (op := .decS8E5) rfl unpack_s8e5

/-- Settles O23: the fields of R96, by `unpack_ur9e2`. -/
theorem decodeUR9E2Result : Obligations.DecodeUR9E2Result :=
  exec_decode_of_unpack (op := .decUR9E2) rfl unpack_ur9e2

/-- Settles O24: the fields of R97, by `unpack_s13e6`. -/
theorem decodeS13E6Result : Obligations.DecodeS13E6Result :=
  exec_decode_of_unpack (op := .decS13E6) rfl unpack_s13e6

end Sys2Proof.Machine
end

section
/-! PROOFS. The statements of 60_exceptions.md: an illegal command is reported, and the report reaches no later
transaction. -/

namespace Sys2Proof.Machine

/-- An illegal word decodes to no operation, so the outputs are the illegal report (R102). -/
theorem blockStep_of_illegal {i : Inputs} (h : ¬ LegalCommand i.cmd) : blockStep i = illegalOutputs := by
  cases hdec : decode i.cmd with
  | ok op => exact absurd ((decode_ok_iff_legal _).mp ⟨op, hdec⟩) h
  | error r => exact blockStep_of_error hdec

/-- Settles O6: the step drives the illegal report alone, and a later transaction reads no output of it. -/
theorem illegalCommandReportsErr : Obligations.IllegalCommandReportsErr := by
  intro s hillegal
  have hstep : step s = .next (s.settle illegalOutputs) := by
    rw [step_eq_next, blockStep_of_illegal hillegal]
  exact ⟨_, hstep, rfl, step_drive_eq _ s⟩

end Sys2Proof.Machine
end

section
/-! PROOFS. The statements of 70_reset_and_hazards.md: the outputs at reset are the step of the reset inputs, which are
an encode of three zeros, and a sample taken in time is the settled step. -/

namespace Sys2Proof.Machine

/-- The fields of an encode of three zeros: every exponent, mantissa and sign is 0. -/
def Fields.zero : Fields := { e := 0, mx := 0, my := 0, mz := 0, sx := false, sy := false, sz := false }

/-- The pattern 0 is the number +0, which conditioning keeps in every codec (R64). -/
theorem condition_zero (c : Codec) (p : Precision) : condition c p 0 = { sign := false, mag := 0 } := by
  cases c <;> cases p <;> rfl

/-- A format has at least one mantissa, so 0 lies below every carry (R70). -/
theorem carryBound_pos (f : FormatParams) (e : ℤ) : 0 < carryBound f e := by
  have hvalues := f.one_le_mantissaValues
  exact mul_pos (by linarith) (denomExact_pos f e)

/-- Nothing carries out of exponent 0 when every channel is 0 (R67 to R71). -/
theorem selectExponent_zero_e (c : Codec) (p : Precision) : (selectExponent c.params p 0).e = 0 := by
  have hpos : 0 < c.params.maxValidBiasedExp := by cases c <;> decide
  have hcarry : magValue p 0 < carryBound c.params (0 : ℕ) := by
    rw [magValue_zero]
    exact carryBound_pos _ _
  exact Nat.le_zero.mp ((selectExponent_e_le_iff hpos).mpr hcarry)

theorem encodeFields_zero (c : Codec) (p : Precision) : encodeFields c p 0 0 0 = Fields.zero := by
  simp only [encodeFields, condition_zero, max_self, selectExponent_zero_e, selectExponent_denomExp, quantize_zero,
    Fields.zero]

theorem packWord_zero (c : Codec) (w : WordName) : packWord c.layout Fields.zero w = 0 := by
  cases c <;> cases w <;> rfl

/-- An encode of three +0.0 channels drives 0 on both words, in every codec and precision. -/
theorem encodeOutputs_of_zero_channels (c : Codec) (p : Precision) {i : Inputs}
    (h : ∀ l : Lane, channelBits p (i.port l) = 0) : encodeOutputs c p i = wordOutputs 0 0 := by
  have hfields : encodedFields c p i = Fields.zero :=
    calc encodedFields c p i
        = encodeFields c p (channelBits p (i.port .x)) (channelBits p (i.port .y)) (channelBits p (i.port .z)) := rfl
      _ = Fields.zero := by rw [h, h, h, encodeFields_zero]
  simp only [encodeOutputs, pack, hfields, packWord_zero]

/-- The command word 0 is ENC.U9E5 (R41), so the reset inputs encode three zeros. -/
theorem settled_reset : State.reset.Settled := by
  have hdec : decode Inputs.reset.cmd = .ok .encU9E5 := rfl
  have hports (l : Lane) : channelBits .binary32 (Inputs.reset.port l) = 0 := by cases l <;> rfl
  exact Eq.symm <|
    calc blockStep Inputs.reset
        = operationOutputs .encU9E5 Inputs.reset := blockStep_of_ok hdec
      _ = encodeOutputs .u9e5 .binary32 Inputs.reset := operationOutputs_of_encode rfl _
      _ = wordOutputs 0 0 := encodeOutputs_of_zero_channels _ _ hports
      _ = Outputs.reset := rfl

/-- Settles O11: the reset state is settled, and a settled state answers itself. -/
theorem resetIsSettled : Obligations.ResetIsSettled :=
  ⟨settled_reset, step_of_settled settled_reset⟩

/-- A sample at LATENCY or later is the step of the inputs the host drives (R118). -/
theorem sample_settled (s : State) (i : Inputs) {elapsed : Nat} (n : Nat) (h : Config.latency ≤ elapsed) :
    sample s i elapsed n = step (s.drive i) :=
  if_pos h

/-- Settles O59: the sample is settled, and the step forgets the state before. -/
theorem sampleAfterLatencyIsStep : Obligations.SampleAfterLatencyIsStep := by
  intro s s' i elapsed n h
  rw [sample_settled s i n h, step_drive_eq s s' i]

end Sys2Proof.Machine
end
